-- ==== Sys2Proof/Word.lean ====
section
/-! DEFINITION. Word.lean: the word types of the machine (spec/00_scope.md rule R7: every value is an
unsigned integer of a stated width). No value of this machine is signed. -/

namespace Sys2Proof

/-- An 8-bit value: a V register, a memory cell, a timer, `nn`, the random byte (rule R7). -/
abbrev Byte := BitVec 8

/-- A 12-bit value: `I`, `pc`, a return address, `nnn`, a byte address of memory (rules R7, R50). -/
abbrev Addr := BitVec 12

/-- A 16-bit instruction word (rules R6, R70). -/
abbrev Word := BitVec 16

/-- A 4-bit field: a register index `x` or `y`, a row count `n`, the top nibble (rules R6, R71). -/
abbrev Nibble := BitVec 4

/-- The index of a V register, 0..15 (rule R22). -/
abbrev RegIdx := Nibble

end Sys2Proof
end

