-- ==== Sys2Proof/Config.lean ====
section
/-! DEFINITION. Config.lean: what is fixed for the machine (spec/00_scope.md rule R4) and the one free
value of the model, the random byte (spec/44_register_ops.md rule R130). The parameters the spec
decides in rule R5 stand in Machine/Params.lean. -/

namespace Sys2Proof.Config

/-- MEM_SIZE (rule R4): the number of memory cells. -/
def memSize : Nat := 4096

/-- LOAD_BASE (rule R4): the first cell of the program image and the reset value of `pc`. -/
def loadBase : Addr := 0x200#12

/-- MAX_IMAGE (rule R4): the largest image that fits, 4096 - 0x200 bytes. -/
def maxImage : Nat := 3584

/-- DISP_W (rule R4). -/
abbrev dispW : Nat := 64

/-- DISP_H (rule R4). -/
abbrev dispH : Nat := 32

/-- NREG (rule R4). -/
abbrev nReg : Nat := 16

/-- NKEYS (rule R4). -/
abbrev nKeys : Nat := 16

/-- SPRITE_W (rule R4): the pixels of one sprite row. -/
def spriteW : Nat := 8

/-- INSN_BYTES (rule R4): the bytes of one instruction. -/
def insnBytes : Nat := 2

/-- The input `rnd` (rule R130, decision D15): "constrained by nothing". FREE VALUE: the constant has
no body, so no proof can know a byte of it; the argument is the number of the draw, which
`State.draws` counts. A statement about it holds whatever the bytes are. Log entry 1. -/
opaque rndByte : Nat → Byte

end Sys2Proof.Config
end

