-- ==== Sys2Proof/Machine/State.lean ====
section
/-! DEFINITION. Machine/State.lean: the state of the machine (spec/10_state.md rules R20 to R31), its
reset value (rule R38), and why a step can stop. -/

namespace Sys2Proof.Machine

/-- `memory` (rules R21, R50): the cells that do not hold 0, as (address, byte) pairs in the canonical
form `Memory.wf` (Machine/Ops.lean): addresses strictly rising, all below 4096, no byte 0. A cell that
is not listed holds 0, its reset contents (rule R38). -/
abbrev Memory := List Host.Cell

/-- `display` (rule R27): 32 rows of 64 one-bit pixels, `true` = on. The nesting is the model's own
layout, which the spec leaves open (decision D20, log entry 8). -/
abbrev Display := Vector (Vector Bool Config.dispW) Config.dispH

/-- The sixteen key flags (rule R28), `true` = down. -/
abbrev Keys := Vector Bool Config.nKeys

/-- The cause of a fatal condition, as `halted` records it (rules R31, R153 to R156). -/
inductive FatalCause where
  /-- 00EE with an empty stack (rule R153). -/
  | stackUnderflow
  /-- 2nnn with STACK_DEPTH entries on the stack (rule R154): raised only where STACK_DEPTH is
  finite, so never with the decided value (Machine/Params.lean). -/
  | stackOverflow
  /-- Ex9E or ExA1 with V[x] = k >= 16 (rule R155). -/
  | keyIndexRange (k : Byte)
  /-- Dxyn with n > 0 and I + n - 1 > 0xFFF (rule R156). -/
  | spriteAddressRange (base : Addr) (n : Nibble)
  deriving DecidableEq, Repr

/-- A non-fatal diagnostic, an output of one cycle (rules R37, R151, R152). -/
inductive Diag where
  /-- The fetched word matches no implemented pattern; carries the raw word (rule R151). -/
  | unknownOpcode (op : Word)
  /-- The cycle was invoked with pc at or beyond the bound; carries the pc (rule R152). -/
  | pcOutOfBounds (pc : Addr)
  deriving DecidableEq, Repr

/-- The architectural state (rule R20): the nine fields the source names and `halted`; then the output
signal `diag` and two fields of the MODEL's own, `events` and `draws` (log entries 1 and 2). -/
structure State where
  /-- The 4096 byte cells (rule R21). -/
  memory : Memory
  /-- The sixteen general registers V0..VF (rule R22). -/
  V : Vector Byte Config.nReg
  /-- The 12-bit index register (rule R24). -/
  I : Addr
  /-- The 12-bit program counter (rule R25). -/
  pc : Addr
  /-- The call stack of 12-bit return addresses, the top first (rule R26). -/
  stack : List Addr
  /-- The framebuffer (rule R27). -/
  display : Display
  /-- The keypad snapshot (rule R28). -/
  keys : Keys
  /-- `delay_timer`, DT (rule R29). -/
  delayTimer : Byte
  /-- `sound_timer`, ST (rule R30). -/
  soundTimer : Byte
  /-- The latch of a fatal condition (rule R31), the output `halted_out` (rule R33). -/
  halted : Option FatalCause
  /-- The output `diag` of the most recent cycle (rules R33, R37). -/
  diag : Option Diag
  /-- MODEL's own: every diagnostic emitted so far, oldest first (rules R10 (b), R32 (d)). -/
  events : List Diag
  /-- MODEL's own: how many random bytes have been drawn; the next one is `Config.rndByte draws`. -/
  draws : Nat
  deriving DecidableEq, Repr

/-- Why the machine stops. Both are SAFE: the machine takes no next state where the spec gives none. -/
inductive Fault where
  /-- A fatal condition was raised in this cycle (rules R10 (c), R99, R100): `s` is the state the fatal
  cycle leaves, with `halted` set to the cause. Raised by RET, SKP, SKNP and DRW (and by CALL where
  STACK_DEPTH is finite). Safe: a fatal state is never a final state of a run (rule R10). -/
  | fatal (cause : FatalCause) (s : State)
  /-- The core was already halted when the cycle was invoked: it has no step (rules R31, R91). Raised
  by `step` alone. Safe: no state follows. -/
  | halted (cause : FatalCause)
  deriving DecidableEq, Repr

/-- Why the model gives an instruction no meaning. -/
inductive Refusal where
  /-- The instruction has no meaning in this model yet. Raised by an arm of `exec` alone; no arm raises
  it now. Safe: nothing follows from a refusal. -/
  | notModelled (mnemonic : String)
  deriving DecidableEq, Repr

/-- What a step or a meaning answers. -/
abbrev Result := Host.Outcome State Fault Refusal

/-- The state right after reset, before any image is loaded (rule R38): memory, registers, stack,
display and timers zero, pc = 0x200, keys up, nothing halted, no diagnostic. `events` and `draws`,
the model's own, start empty and at 0 (log entries 1 and 2). -/
def State.reset : State where
  memory := []
  V := Vector.replicate Config.nReg 0
  I := 0
  pc := Config.loadBase
  stack := []
  display := Vector.replicate Config.dispH (Vector.replicate Config.dispW false)
  keys := Vector.replicate Config.nKeys false
  delayTimer := 0
  soundTimer := 0
  halted := none
  diag := none
  events := []
  draws := 0

end Sys2Proof.Machine
end

