-- ==== Sys2Proof/Machine/Params.lean ====
section
/-! DEFINITION. Machine/Params.lean: the parameters the source leaves open, at the values the spec decides
(spec/00_scope.md rule R5). Those not listed here are decided in the body of one operation each:
PC_OVERFLOW (wrap) in `skipIf` and `startCycle`, UNDERFLOW_POLICY in `execRet`, KEY_INDEX_POLICY in
`keyDown?`, SPRITE_RANGE_POLICY in `spriteRows?`, DRAW_OPERAND_ORDER in `execDrw`, STRICT_MATCH in
`decodeWord`, OVERSIZE_IMAGE_POLICY in `loadImage`, TIMER_RESET and KEYS_RESET in `State.reset`. -/

namespace Sys2Proof.Machine

/-- PC_OOB_THRESHOLD (rules R5, R92, decision D3): a cycle whose pc >= this value is skipped. -/
def pcOobThreshold : Addr := 0xFFE#12

/-- OOB_TIMERS_TICK (rules R5, R92, decision D4): whether timers tick on a skipped cycle. -/
def oobTimersTick : Bool := false

/-- STACK_DEPTH (rules R5, R113, decision D6): `none` = unbounded. -/
def stackDepth : Option Nat := none

end Sys2Proof.Machine
end

