-- ==== Sys2Proof/Machine/Ops.lean ====
section
/-! DEFINITION. Machine/Ops.lean: the named operations over memory, registers, the stack, the display, the
outputs and the timers, taking a fatal condition, and the phases of a cycle around the instruction
(spec/00_scope.md rule R9, spec/20_memory.md, spec/40_cycle.md). -/

namespace Sys2Proof.Machine

/-! ### Memory -/

/-- The byte of an address: the listed one, else 0 (rules R38, R55). -/
def Memory.read : Memory → Nat → Byte
  | [], _ => 0
  | (a', b') :: m, a => if a = a' then b' else Memory.read m a

/-- Puts a cell in front, unless it holds what an unlisted address reads as. -/
def Memory.cons (a : Nat) (b : Byte) (m : Memory) : Memory := if b = 0 then m else (a, b) :: m

/-- Writes a byte, keeping the canonical form: a byte 0 removes the entry. Only the image load
(rule R34) and the host's placement of a word use it: no instruction writes memory (rule R56). -/
def Memory.write : Memory → Nat → Byte → Memory
  | [], a, b => Memory.cons a b []
  | (a', b') :: m, a, b =>
    if a < a' then Memory.cons a b ((a', b') :: m)
    else if a = a' then Memory.cons a b m
    else (a', b') :: Memory.write m a b

/-- The canonical form: addresses strictly rising and below MEM_SIZE, no byte 0. -/
def Memory.wf : Memory → Bool
  | [] => true
  | (a, b) :: m => decide (a < Config.memSize) && b != 0 && m.all (fun c => decide (a < c.1)) && Memory.wf m

/-- Writes consecutive bytes from address `a` upward (rule R34). -/
def Memory.writeBytes (m : Memory) (a : Nat) : List Byte → Memory
  | [] => m
  | b :: bs => Memory.writeBytes (m.write a b) (a + 1) bs

/-- `MemRead(addr, 1)` (rules R9, R55): defined for every 12-bit address, and without side effect. -/
def State.readByte (s : State) (a : Addr) : Byte := Memory.read s.memory a.toNat

/-- Replaces memory. -/
def State.setMemory (s : State) (m : Memory) : State := { s with memory := m }

/-! ### Registers -/

/-- `V[i]` (rule R9): every register, VF included, is read the same way (rule R22). -/
def State.getV (s : State) (x : RegIdx) : Byte := s.V[x.toNat]'(x.isLt)

/-- `V[i] <- v` (rule R9): every register, VF included, is written the same way (rule R22). -/
def State.setV (s : State) (x : RegIdx) (v : Byte) : State :=
  { s with V := s.V.set x.toNat v x.isLt }

/-- `I <- v` (rule R24). -/
def State.setI (s : State) (a : Addr) : State := { s with I := a }

/-- `pc <- target` (rule R25). -/
def State.setPc (s : State) (a : Addr) : State := { s with pc := a }

/-- `delay_timer <- v` (rule R29). -/
def State.setDelayTimer (s : State) (v : Byte) : State := { s with delayTimer := v }

/-- `sound_timer <- v` (rule R30). -/
def State.setSoundTimer (s : State) (v : Byte) : State := { s with soundTimer := v }

/-- The keypad snapshot is replaced whole (rule R35). -/
def State.setKeys (s : State) (k : Keys) : State := { s with keys := k }

/-- The random byte of this cycle (rule R130), a free value. -/
def State.rnd (s : State) : Byte := Config.rndByte s.draws

/-- After a draw the next one is a fresh byte. -/
def State.nextDraw (s : State) : State := { s with draws := s.draws + 1 }

/-! ### The call stack -/

/-- Replaces the stack. -/
def State.setStack (s : State) (l : List Addr) : State := { s with stack := l }

/-- `push(v)` (rule R9). -/
def State.push (s : State) (a : Addr) : State := s.setStack (a :: s.stack)

/-- `|stack| == STACK_DEPTH` (rule R112): never, where STACK_DEPTH is unbounded. -/
def State.stackFull (s : State) : Bool :=
  match stackDepth with
  | none => false
  | some d => s.stack.length == d

/-! ### The display -/

/-- `disp[px][py]` (rules R9, R27). -/
def Display.pixel (d : Display) (px : Fin Config.dispW) (py : Fin Config.dispH) : Bool := d[py][px]

/-- `disp[px][py] <- v` (rule R9). -/
def Display.setPixel (d : Display) (px : Fin Config.dispW) (py : Fin Config.dispH) (v : Bool) : Display :=
  d.set py (d[py].set px v)

/-- All 2048 pixels 0 (rules R27, R105). -/
def Display.clear : Display := Vector.replicate Config.dispH (Vector.replicate Config.dispW false)

/-- Replaces the display. -/
def State.setDisplay (s : State) (d : Display) : State := { s with display := d }

/-- The column of a sprite's column offset `c`: `(V[x] + c) mod 64` (rule R106). -/
def spriteColumn (vx : Byte) (c : Nat) : Fin Config.dispW := ⟨(vx.toNat + c) % 64, Nat.mod_lt _ (by decide)⟩

/-- The row of a sprite's row offset `r`: `(V[y] + r) mod 32` (rule R106). -/
def spriteRow (vy : Byte) (r : Nat) : Fin Config.dispH := ⟨(vy.toNat + r) % 32, Nat.mod_lt _ (by decide)⟩

/-- Whether bit `0x80 >> c` of the row byte is set (rule R106). -/
def spriteBit (row : Byte) (c : Nat) : Bool := (row &&& (0x80#8 >>> c)) != 0

/-- A drawing in progress: the display and whether a lit pixel was turned off so far. -/
structure Canvas where
  display : Display
  hit     : Bool
  deriving DecidableEq, Repr

/-- XORs one pixel with 1 and records a collision if it was lit (rule R106). -/
def Canvas.xorPixel (k : Canvas) (px : Fin Config.dispW) (py : Fin Config.dispH) : Canvas where
  display := k.display.setPixel px py (k.display.pixel px py ^^ true)
  hit := k.hit || k.display.pixel px py

/-- Draws the columns `c, c+1, …` of one row byte, `todo` of them (rule R106). -/
def Canvas.drawRow (vx vy row : Byte) (r : Nat) : Nat → Nat → Canvas → Canvas
  | 0, _, k => k
  | todo + 1, c, k =>
    Canvas.drawRow vx vy row r todo (c + 1)
      (if spriteBit row c then k.xorPixel (spriteColumn vx c) (spriteRow vy r) else k)

/-- Draws the row bytes at row offsets `r, r+1, …`, eight columns each (rule R106). -/
def Canvas.drawRows (vx vy : Byte) : Nat → List Byte → Canvas → Canvas
  | _, [], k => k
  | r, row :: rows, k => Canvas.drawRows vx vy (r + 1) rows (Canvas.drawRow vx vy row r Config.spriteW 0 k)

/-! ### Outputs -/

/-- `diag <- D` (rule R9), kept also in the model's event log (rule R10 (b)). -/
def State.emit (s : State) (d : Diag) : State := { s with diag := some d, events := s.events ++ [d] }

/-- `diag <- none`, at the start of a cycle (rule R90). -/
def State.clearDiag (s : State) : State := { s with diag := none }

/-! ### Conditions -/

/-- `halted <- C` (rule R31). -/
def State.latch (s : State) (c : FatalCause) : State := { s with halted := some c }

/-- TAKING A FATAL CONDITION (rules R99, R161): `halted <- cause` in the state as it stands, with pc
advanced, none of the instruction's writes made, `diag` none; the cycle then ends without a tick.
There is no handler and no return from it (rules R161, R162): the machine stops, and the fault
carries the state the cycle leaves (rules R10 (c), R100; log entry 3). -/
def raise (c : FatalCause) (s : State) : Result := .fault (.fatal c (s.latch c))

/-- THE FALLBACK of an unimplemented word (rule R140): the diagnostic, and no other effect. -/
def unknownOpcode (op : Word) (s : State) : Result := .next (s.emit (.unknownOpcode op))

/-- THE SKIP ACTION (rules R115, R123): pc + 2, mod 4096, where the condition holds. -/
def skipIf (c : Bool) (s : State) : State := if c then s.setPc (s.pc + 2) else s

/-! ### The phases of a cycle around the instruction -/

/-- The bounds check before fetch (rule R92). -/
def State.pcOutOfBounds (s : State) : Bool := decide (pcOobThreshold ≤ s.pc)

/-- The decrement of one timer: not below 0 (rule R96). -/
def tickByte (t : Byte) : Byte := if t = 0 then 0 else t - 1

/-- The tick of both timers (rule R96). -/
def State.tick (s : State) : State :=
  (s.setDelayTimer (tickByte s.delayTimer)).setSoundTimer (tickByte s.soundTimer)

/-- A skipped cycle (rule R92): the diagnostic alone; no fetch, no decode, no tick. -/
def State.skipCycle (s : State) : State :=
  (if oobTimersTick then s.tick else s).emit (.pcOutOfBounds s.pc)

/-- The two bytes of the fetch, the high one first (rule R93). pc <= 0xFFD there, so pc + 1 does not
wrap. -/
def State.fetchBytes (s : State) : Byte × Byte := (s.readByte s.pc, s.readByte (s.pc + 1))

/-- The start of a fetched cycle (rules R90, R94): no diagnostic yet, pc advanced by 2. -/
def State.startCycle (s : State) : State := s.clearDiag.setPc (s.pc + 2)

/-- The end of a fetched cycle: the tick, unless a fatal condition ended it (rules R96, R99). -/
def endCycle : Result → Result
  | .next s => .next s.tick
  | .fault f => .fault f
  | .refused r => .refused r

/-- The host's placement of one word where the next cycle fetches it. It stands for an image load
(rule R34, log entry 4). -/
def State.placeWord (s : State) (hi lo : Byte) : State :=
  s.setMemory ((Memory.write s.memory s.pc.toNat hi).write (s.pc + 1).toNat lo)

end Sys2Proof.Machine
end

