-- ==== Sys2Proof/Machine/Control.lean ====
section
/-! DEFINITION. Machine/Control.lean: control transfer and the call stack, 00EE, 1nnn, 2nnn
(spec/42_control_transfer.md). `s.pc` is the already advanced pc (rule R94). -/

namespace Sys2Proof.Machine

/-- 00EE, RET (rule R110): pops the return address into pc; an empty stack is the fatal condition. -/
def execRet (s : State) : Result :=
  match s.stack with
  | [] => raise .stackUnderflow s
  | a :: rest => .next ((s.setStack rest).setPc a)

/-- 1nnn, JP (rule R111): pc <- nnn, unvalidated. -/
def execJp (nnn : Addr) (s : State) : Result := .next (s.setPc nnn)

/-- 2nnn, CALL (rules R112, R113): pushes the address after the 2nnn, then pc <- nnn; a full stack is
the fatal condition, which an unbounded STACK_DEPTH never meets. -/
def execCall (nnn : Addr) (s : State) : Result :=
  if s.stackFull then raise .stackOverflow s else .next ((s.push s.pc).setPc nnn)

end Sys2Proof.Machine
end

