-- ==== Sys2Proof/Machine/Flags.lean ====
section
/-! DEFINITION. Machine/Flags.lean: the one flag of the machine, VF as the collision flag of Dxyn
(spec/10_state.md rule R23). No other instruction computes a flag: neither 7xnn nor Fx1E records a
carry, and skips test values directly. -/

namespace Sys2Proof.Machine

/-- The index of VF. -/
def regF : RegIdx := 0xF

/-- The value of the collision flag (rule R106): 1 if a lit pixel was turned off, else 0. -/
def collisionFlag (hit : Bool) : Byte := if hit then 1 else 0

/-- Writes the collision flag (rules R23, R106). -/
def State.setVF (s : State) (hit : Bool) : State := s.setV regF (collisionFlag hit)

end Sys2Proof.Machine
end

