-- ==== Sys2Proof/Machine/Operands.lean ====
section
/-! DEFINITION. Machine/Operands.lean: the operand forms that are more than a field's value: a key index,
the bytes of a sprite, and the sums of two operands (spec/30_encoding.md rule R73). Every other
operand is a field taken as it stands. -/

namespace Sys2Proof.Machine

/-- `keys[k]` for a register value `k`: absent where k >= 16, since there are sixteen flags
(rules R120 to R122, KEY_INDEX_POLICY = fatal, decision D9). -/
def State.keyDown? (s : State) (k : Byte) : Option Bool :=
  if h : k.toNat < Config.nKeys then some s.keys[k.toNat] else none

/-- Whether some row of the sprite lies above 0xFFF: `n > 0 and base + n - 1 > 0xFFF` (rule R107). -/
def spriteOutOfRange (base : Addr) (n : Nibble) : Bool :=
  decide (0 < n.toNat) && decide (0xFFF < base.toNat + n.toNat - 1)

/-- The `todo` bytes at addresses `base + r, base + r + 1, …` (rule R106). -/
def State.spriteBytes (s : State) (base : Addr) : Nat → Nat → List Byte
  | 0, _ => []
  | todo + 1, r => s.readByte (base + BitVec.ofNat 12 r) :: s.spriteBytes base todo (r + 1)

/-- The `n` consecutive bytes of a sprite starting at `base`; absent where some row has no memory cell
(rules R55, R107, SPRITE_RANGE_POLICY = fatal, decision D10). -/
def State.spriteRows? (s : State) (base : Addr) (n : Nibble) : Option (List Byte) :=
  if spriteOutOfRange base n then none else some (s.spriteBytes base n.toNat 0)

/-- `(V[x] + nn) mod 256` (rules R8, R126). -/
def addByte (v nn : Byte) : Byte := v + nn

/-- `(I + zext_12(V[x])) mod 4096` (rules R8, R129). -/
def addIndex (i : Addr) (v : Byte) : Addr := i + v.setWidth 12

end Sys2Proof.Machine
end

