-- ==== Sys2Proof/Machine/Draw.lean ====
section
/-! DEFINITION. Machine/Draw.lean: the display instructions 00E0 and Dxyn (spec/41_display.md). -/

namespace Sys2Proof.Machine

/-- 00E0, CLS (rule R105): all pixels 0; VF is not written. -/
def execCls (s : State) : Result := .next (s.setDisplay Display.clear)

/-- Dxyn, DRW (rules R106 to R108): V[x], V[y] and I are read first; a sprite that leaves memory is the
fatal condition, with nothing done; else every set sprite bit flips its pixel, and VF becomes 1 if any
flip turned a lit pixel off, 0 otherwise (the reset of VF to 0 at the start is not visible, rule R98). -/
def execDrw (x y : RegIdx) (n : Nibble) (s : State) : Result :=
  let vx := s.getV x
  let vy := s.getV y
  let base := s.I
  match s.spriteRows? base n with
  | none => raise (.spriteAddressRange base n) s
  | some rows =>
    let k := Canvas.drawRows vx vy 0 rows ⟨s.display, false⟩
    .next ((s.setDisplay k.display).setVF k.hit)

end Sys2Proof.Machine
end

