-- ==== Sys2Proof/Machine/Registers.lean ====
section
/-! DEFINITION. Machine/Registers.lean: register, index and random operations, 6xnn, 7xnn, Annn, Cxnn, Fx1E
(spec/44_register_ops.md). None of them writes a flag (rules R23, R126, R129). -/

namespace Sys2Proof.Machine

/-- 6xnn, LD Vx, nn (rule R125). -/
def execLdImm (x : RegIdx) (nn : Byte) (s : State) : Result := .next (s.setV x nn)

/-- 7xnn, ADD Vx, nn (rule R126). -/
def execAddImm (x : RegIdx) (nn : Byte) (s : State) : Result := .next (s.setV x (addByte (s.getV x) nn))

/-- Annn, LD I, nnn (rule R127). -/
def execLdI (nnn : Addr) (s : State) : Result := .next (s.setI nnn)

/-- Cxnn, RND Vx, nn (rules R128, R130): the random byte is a free value; it is drawn afresh each time. -/
def execRnd (x : RegIdx) (nn : Byte) (s : State) : Result := .next ((s.setV x (s.rnd &&& nn)).nextDraw)

/-- Fx1E, ADD I, Vx (rule R129). -/
def execAddI (x : RegIdx) (s : State) : Result := .next (s.setI (addIndex s.I (s.getV x)))

end Sys2Proof.Machine
end

