-- ==== Sys2Proof/Machine/Skips.lean ====
section
/-! DEFINITION. Machine/Skips.lean: the six conditional skips (spec/43_skips.md). -/

namespace Sys2Proof.Machine

/-- 3xnn, SE Vx, nn (rule R116). -/
def execSeImm (x : RegIdx) (nn : Byte) (s : State) : Result := .next (skipIf (s.getV x == nn) s)

/-- 4xnn, SNE Vx, nn (rule R117). -/
def execSneImm (x : RegIdx) (nn : Byte) (s : State) : Result := .next (skipIf (s.getV x != nn) s)

/-- 5xy0, SE Vx, Vy (rule R118). -/
def execSeReg (x y : RegIdx) (s : State) : Result := .next (skipIf (s.getV x == s.getV y) s)

/-- 9xy0, SNE Vx, Vy (rule R119). -/
def execSneReg (x y : RegIdx) (s : State) : Result := .next (skipIf (s.getV x != s.getV y) s)

/-- Ex9E, SKP Vx (rules R120, R122): skips if key V[x] is down in the snapshot. -/
def execSkp (x : RegIdx) (s : State) : Result :=
  match s.keyDown? (s.getV x) with
  | none => raise (.keyIndexRange (s.getV x)) s
  | some down => .next (skipIf down s)

/-- ExA1, SKNP Vx (rules R121, R122): skips if key V[x] is up in the snapshot. -/
def execSknp (x : RegIdx) (s : State) : Result :=
  match s.keyDown? (s.getV x) with
  | none => raise (.keyIndexRange (s.getV x)) s
  | some down => .next (skipIf (!down) s)

end Sys2Proof.Machine
end

