-- ==== Sys2Proof/Machine/Timers.lean ====
section
/-! DEFINITION. Machine/Timers.lean: timer access, Fx07, Fx15, Fx18 (spec/45_timer_access.md). The tick
follows in the same cycle (rule R138, `endCycle`). -/

namespace Sys2Proof.Machine

/-- Fx07, LD Vx, DT (rule R135). -/
def execLdVxDT (x : RegIdx) (s : State) : Result := .next (s.setV x s.delayTimer)

/-- Fx15, LD DT, Vx (rule R136). -/
def execLdDTVx (x : RegIdx) (s : State) : Result := .next (s.setDelayTimer (s.getV x))

/-- Fx18, LD ST, Vx (rule R137). -/
def execLdSTVx (x : RegIdx) (s : State) : Result := .next (s.setSoundTimer (s.getV x))

end Sys2Proof.Machine
end

