-- ==== Sys2Proof/Syntax.lean ====
section
/-! DEFINITION. Syntax.lean: the instructions, one constructor per row of spec/opcode_table.json
(spec/30_encoding.md rules R75, R81; spec/46_unimplemented.md rules R141, R142). -/

namespace Sys2Proof

/-- The instruction set. The nineteen implemented patterns come first, in the order of rule R75; then
the seven groups rule R141 names as unimplemented, with the fields the opcode table gives their
rows; last every other word. -/
inductive Instr where
  /-- 00E0, `CLS` (rule R105). -/
  | cls
  /-- 00EE, `RET` (rule R110). -/
  | ret
  /-- 1nnn, `JP nnn` (rule R111). -/
  | jp (nnn : Addr)
  /-- 2nnn, `CALL nnn` (rule R112). -/
  | call (nnn : Addr)
  /-- 3xnn, `SE Vx, nn` (rule R116). -/
  | seImm (x : RegIdx) (nn : Byte)
  /-- 4xnn, `SNE Vx, nn` (rule R117). -/
  | sneImm (x : RegIdx) (nn : Byte)
  /-- 5xy0, `SE Vx, Vy` (rule R118). -/
  | seReg (x y : RegIdx)
  /-- 6xnn, `LD Vx, nn` (rule R125). -/
  | ldImm (x : RegIdx) (nn : Byte)
  /-- 7xnn, `ADD Vx, nn` (rule R126). -/
  | addImm (x : RegIdx) (nn : Byte)
  /-- 9xy0, `SNE Vx, Vy` (rule R119). -/
  | sneReg (x y : RegIdx)
  /-- Annn, `LD I, nnn` (rule R127). -/
  | ldI (nnn : Addr)
  /-- Cxnn, `RND Vx, nn` (rule R128). -/
  | rnd (x : RegIdx) (nn : Byte)
  /-- Dxyn, `DRW Vx, Vy, n` (rule R106). -/
  | drw (x y : RegIdx) (n : Nibble)
  /-- Ex9E, `SKP Vx` (rule R120). -/
  | skp (x : RegIdx)
  /-- ExA1, `SKNP Vx` (rule R121). -/
  | sknp (x : RegIdx)
  /-- Fx07, `LD Vx, DT` (rule R135). -/
  | ldVxDT (x : RegIdx)
  /-- Fx15, `LD DT, Vx` (rule R136). -/
  | ldDTVx (x : RegIdx)
  /-- Fx18, `LD ST, Vx` (rule R137). -/
  | ldSTVx (x : RegIdx)
  /-- Fx1E, `ADD I, Vx` (rule R129). -/
  | addI (x : RegIdx)
  /-- 8xy_, named unimplemented (rule R141). -/
  | unimpl8xy (x y : RegIdx) (n : Nibble)
  /-- Bnnn, named unimplemented (rule R141). -/
  | unimplBnnn (nnn : Addr)
  /-- Fx0A, named unimplemented (rule R141): it does not wait for a key. -/
  | unimplFx0A (x : RegIdx)
  /-- Fx29, named unimplemented (rule R141): there is no font. -/
  | unimplFx29 (x : RegIdx)
  /-- Fx33, named unimplemented (rule R141): it does not write memory. -/
  | unimplFx33 (x : RegIdx)
  /-- Fx55, named unimplemented (rule R141): it does not write memory. -/
  | unimplFx55 (x : RegIdx)
  /-- Fx65, named unimplemented (rule R141): it does not write registers. -/
  | unimplFx65 (x : RegIdx)
  /-- Every word no other row matches (rule R142), carrying the raw word. -/
  | unimplAny (op : Word)
  deriving DecidableEq, Repr

end Sys2Proof
end

