-- ==== Sys2Proof/WellFormed.lean ====
section
/-! DEFINITION. WellFormed.lean: the rows of the opcode table as masks and matches (spec/30_encoding.md
rule R75, spec/46_unimplemented.md rule R141) and the one check an instruction needs: `unimplAny` may
carry only a word that no other row matches (rule R81: the catch-all row "applies only when no other
row matches"). Every other operand is a bit field of its exact width and can hold no bad value. -/

namespace Sys2Proof

/-- One row of the opcode table: a word `w` selects it when `w & mask == pat` (rule R75). -/
structure OpcodeRow where
  mask : Word
  pat  : Word
  deriving DecidableEq, Repr

/-- Whether the row selects the word (rule R75). -/
def OpcodeRow.selects (r : OpcodeRow) (w : Word) : Bool := (w &&& r.mask) == r.pat

/-- The nineteen implemented rows, in the order of rule R75. -/
def implementedRows : List OpcodeRow :=
  [⟨0xFFFF, 0x00E0⟩, ⟨0xFFFF, 0x00EE⟩, ⟨0xF000, 0x1000⟩, ⟨0xF000, 0x2000⟩, ⟨0xF000, 0x3000⟩,
   ⟨0xF000, 0x4000⟩, ⟨0xF00F, 0x5000⟩, ⟨0xF000, 0x6000⟩, ⟨0xF000, 0x7000⟩, ⟨0xF00F, 0x9000⟩,
   ⟨0xF000, 0xA000⟩, ⟨0xF000, 0xC000⟩, ⟨0xF000, 0xD000⟩, ⟨0xF0FF, 0xE09E⟩, ⟨0xF0FF, 0xE0A1⟩,
   ⟨0xF0FF, 0xF007⟩, ⟨0xF0FF, 0xF015⟩, ⟨0xF0FF, 0xF018⟩, ⟨0xF0FF, 0xF01E⟩]

/-- The seven rows rule R141 names as unimplemented. -/
def namedUnimplementedRows : List OpcodeRow :=
  [⟨0xF000, 0x8000⟩, ⟨0xF000, 0xB000⟩, ⟨0xF0FF, 0xF00A⟩, ⟨0xF0FF, 0xF029⟩, ⟨0xF0FF, 0xF033⟩,
   ⟨0xF0FF, 0xF055⟩, ⟨0xF0FF, 0xF065⟩]

/-- The catch-all row (rule R81). -/
def catchAllRow : OpcodeRow := ⟨0x0000, 0x0000⟩

/-- The row an instruction belongs to. -/
def Instr.row : Instr → OpcodeRow
  | .cls => ⟨0xFFFF, 0x00E0⟩
  | .ret => ⟨0xFFFF, 0x00EE⟩
  | .jp _ => ⟨0xF000, 0x1000⟩
  | .call _ => ⟨0xF000, 0x2000⟩
  | .seImm _ _ => ⟨0xF000, 0x3000⟩
  | .sneImm _ _ => ⟨0xF000, 0x4000⟩
  | .seReg _ _ => ⟨0xF00F, 0x5000⟩
  | .ldImm _ _ => ⟨0xF000, 0x6000⟩
  | .addImm _ _ => ⟨0xF000, 0x7000⟩
  | .sneReg _ _ => ⟨0xF00F, 0x9000⟩
  | .ldI _ => ⟨0xF000, 0xA000⟩
  | .rnd _ _ => ⟨0xF000, 0xC000⟩
  | .drw _ _ _ => ⟨0xF000, 0xD000⟩
  | .skp _ => ⟨0xF0FF, 0xE09E⟩
  | .sknp _ => ⟨0xF0FF, 0xE0A1⟩
  | .ldVxDT _ => ⟨0xF0FF, 0xF007⟩
  | .ldDTVx _ => ⟨0xF0FF, 0xF015⟩
  | .ldSTVx _ => ⟨0xF0FF, 0xF018⟩
  | .addI _ => ⟨0xF0FF, 0xF01E⟩
  | .unimpl8xy _ _ _ => ⟨0xF000, 0x8000⟩
  | .unimplBnnn _ => ⟨0xF000, 0xB000⟩
  | .unimplFx0A _ => ⟨0xF0FF, 0xF00A⟩
  | .unimplFx29 _ => ⟨0xF0FF, 0xF029⟩
  | .unimplFx33 _ => ⟨0xF0FF, 0xF033⟩
  | .unimplFx55 _ => ⟨0xF0FF, 0xF055⟩
  | .unimplFx65 _ => ⟨0xF0FF, 0xF065⟩
  | .unimplAny _ => catchAllRow

/-- Whether no row but the catch-all selects the word (rules R81, R142). -/
def isOtherWord (w : Word) : Bool :=
  !(implementedRows ++ namedUnimplementedRows).any (·.selects w)

/-- An instruction is well formed unless it is the catch-all with a word some other row selects. -/
def Instr.wf : Instr → Bool
  | .unimplAny op => isOtherWord op
  | .cls | .ret | .jp _ | .call _ | .seImm _ _ | .sneImm _ _ | .seReg _ _ | .ldImm _ _
  | .addImm _ _ | .sneReg _ _ | .ldI _ | .rnd _ _ | .drw _ _ _ | .skp _ | .sknp _ | .ldVxDT _
  | .ldDTVx _ | .ldSTVx _ | .addI _ | .unimpl8xy _ _ _ | .unimplBnnn _ | .unimplFx0A _
  | .unimplFx29 _ | .unimplFx33 _ | .unimplFx55 _ | .unimplFx65 _ => true

/-- Whether the instruction is one of the nineteen implemented ones (rule R75); the others execute the
fallback of rule R140. -/
def Instr.implemented : Instr → Bool
  | .unimpl8xy _ _ _ | .unimplBnnn _ | .unimplFx0A _ | .unimplFx29 _ | .unimplFx33 _
  | .unimplFx55 _ | .unimplFx65 _ | .unimplAny _ => false
  | .cls | .ret | .jp _ | .call _ | .seImm _ _ | .sneImm _ _ | .seReg _ _ | .ldImm _ _
  | .addImm _ _ | .sneReg _ _ | .ldI _ | .rnd _ _ | .drw _ _ _ | .skp _ | .sknp _ | .ldVxDT _
  | .ldDTVx _ | .ldSTVx _ | .addI _ => true

end Sys2Proof
end

