-- ==== Sys2Proof/Decode.lean ====
section
/-! DEFINITION. Decode.lean: bit fields (spec/30_encoding.md rules R71, R72), the decoder (rule R74) on
words and on bytes, the encoder (rule R81), and the host's `decodeTableWord`. -/

namespace Sys2Proof

/-- `op[15:12]` (rule R71). -/
def fieldTop (w : Word) : Nibble := w.extractLsb' 12 4

/-- `x = op[11:8]` (rule R71). -/
def fieldX (w : Word) : RegIdx := w.extractLsb' 8 4

/-- `y = op[7:4]` (rule R71). -/
def fieldY (w : Word) : RegIdx := w.extractLsb' 4 4

/-- `n = op[3:0]` (rule R71). -/
def fieldN (w : Word) : Nibble := w.extractLsb' 0 4

/-- `nn = op[7:0]` (rule R71). -/
def fieldNN (w : Word) : Byte := w.extractLsb' 0 8

/-- `nnn = op[11:0]` (rule R71). -/
def fieldNNN (w : Word) : Addr := w.extractLsb' 0 12

/-- The second level of group E: the low byte must be 0x9E or 0xA1 (rule R74 (3)). -/
def decodeE (w : Word) : Instr :=
  match (fieldNN w).toNat with
  | 0x9E => .skp (fieldX w)
  | 0xA1 => .sknp (fieldX w)
  | _ => .unimplAny w

/-- The second level of group F: the low byte must be 0x07, 0x15, 0x18 or 0x1E (rule R74 (3)); five
further low bytes are the named unimplemented rows of rule R141. -/
def decodeF (w : Word) : Instr :=
  match (fieldNN w).toNat with
  | 0x07 => .ldVxDT (fieldX w)
  | 0x15 => .ldDTVx (fieldX w)
  | 0x18 => .ldSTVx (fieldX w)
  | 0x1E => .addI (fieldX w)
  | 0x0A => .unimplFx0A (fieldX w)
  | 0x29 => .unimplFx29 (fieldX w)
  | 0x33 => .unimplFx33 (fieldX w)
  | 0x55 => .unimplFx55 (fieldX w)
  | 0x65 => .unimplFx65 (fieldX w)
  | _ => .unimplAny w

/-- The decoder of words, total on all 65536 (rules R74, R76, R77): the two full-value words first,
then the top nibble, then the fixed low digits of groups 5, 9, E and F. Groups 5 and 9 are matched
strictly (STRICT_MATCH, decision D12). -/
def decodeWord (w : Word) : Instr :=
  if w = 0x00E0#16 then .cls
  else if w = 0x00EE#16 then .ret
  else
    match (fieldTop w).toNat with
    | 0x1 => .jp (fieldNNN w)
    | 0x2 => .call (fieldNNN w)
    | 0x3 => .seImm (fieldX w) (fieldNN w)
    | 0x4 => .sneImm (fieldX w) (fieldNN w)
    | 0x5 => if fieldN w = 0 then .seReg (fieldX w) (fieldY w) else .unimplAny w
    | 0x6 => .ldImm (fieldX w) (fieldNN w)
    | 0x7 => .addImm (fieldX w) (fieldNN w)
    | 0x8 => .unimpl8xy (fieldX w) (fieldY w) (fieldN w)
    | 0x9 => if fieldN w = 0 then .sneReg (fieldX w) (fieldY w) else .unimplAny w
    | 0xA => .ldI (fieldNNN w)
    | 0xB => .unimplBnnn (fieldNNN w)
    | 0xC => .rnd (fieldX w) (fieldNN w)
    | 0xD => .drw (fieldX w) (fieldY w) (fieldN w)
    | 0xE => decodeE w
    | 0xF => decodeF w
    | _ => .unimplAny w

/-- The instruction word of two bytes: `hi * 256 + lo`, the first byte high (rules R52, R70, R93). -/
def wordOfBytes (hi lo : Byte) : Word := BitVec.ofNat 16 (hi.toNat * 0x100 + lo.toNat)

/-- The bytes of a word as memory stores them, high byte at the lower address (rules R52, R70). -/
def bytesOfWord (w : Word) : List Byte := [w.extractLsb' 8 8, w.extractLsb' 0 8]

/-- Why a list of bytes is no instruction. -/
inductive DecodeError where
  /-- Fewer than two bytes are left: an instruction is two bytes (rule R70). No word is refused. -/
  | truncated
  deriving DecidableEq, Repr

/-- The decoder of bytes, total: two bytes make an instruction (rule R70), and the rest is returned. -/
def decodeBytes : List Byte → Except DecodeError (Instr × List Byte)
  | hi :: lo :: rest => .ok (decodeWord (wordOfBytes hi lo), rest)
  | [_] => .error .truncated
  | [] => .error .truncated

/-- Format NNN (rule R72): a top digit and a 12-bit immediate. -/
def wordNNN (top : Nibble) (nnn : Addr) : Word := BitVec.ofNat 16 (top.toNat * 0x1000 + nnn.toNat)

/-- Formats XNN and XKK (rule R72): a top digit, a register, a low byte (immediate or fixed). -/
def wordXNN (top : Nibble) (x : RegIdx) (nn : Byte) : Word :=
  BitVec.ofNat 16 (top.toNat * 0x1000 + x.toNat * 0x100 + nn.toNat)

/-- Formats XYN and XY0 (rule R72): a top digit, two registers, a low digit (field or fixed 0). -/
def wordXYN (top : Nibble) (x y : RegIdx) (n : Nibble) : Word :=
  BitVec.ofNat 16 (top.toNat * 0x1000 + x.toNat * 0x100 + y.toNat * 0x10 + n.toNat)

/-- The encoder (rule R81): the row's fixed digits with the fields placed per rule R72;
`Unimplemented(op)` encodes as `op`. -/
def encode : Instr → Word
  | .cls => 0x00E0#16
  | .ret => 0x00EE#16
  | .jp nnn => wordNNN 0x1 nnn
  | .call nnn => wordNNN 0x2 nnn
  | .seImm x nn => wordXNN 0x3 x nn
  | .sneImm x nn => wordXNN 0x4 x nn
  | .seReg x y => wordXYN 0x5 x y 0
  | .ldImm x nn => wordXNN 0x6 x nn
  | .addImm x nn => wordXNN 0x7 x nn
  | .sneReg x y => wordXYN 0x9 x y 0
  | .ldI nnn => wordNNN 0xA nnn
  | .rnd x nn => wordXNN 0xC x nn
  | .drw x y n => wordXYN 0xD x y n
  | .skp x => wordXNN 0xE x 0x9E
  | .sknp x => wordXNN 0xE x 0xA1
  | .ldVxDT x => wordXNN 0xF x 0x07
  | .ldDTVx x => wordXNN 0xF x 0x15
  | .ldSTVx x => wordXNN 0xF x 0x18
  | .addI x => wordXNN 0xF x 0x1E
  | .unimpl8xy x y n => wordXYN 0x8 x y n
  | .unimplBnnn nnn => wordNNN 0xB nnn
  | .unimplFx0A x => wordXNN 0xF x 0x0A
  | .unimplFx29 x => wordXNN 0xF x 0x29
  | .unimplFx33 x => wordXNN 0xF x 0x33
  | .unimplFx55 x => wordXNN 0xF x 0x55
  | .unimplFx65 x => wordXNN 0xF x 0x65
  | .unimplAny op => op

/-- The instruction word with the table's `nbits` low bits of `w`, every bit above them 0. Every
instruction is one 16-bit word (rule R70), so bit 0 of the table is bit 0 of the word. -/
def tableWord (nbits w : Nat) : Word := BitVec.ofNat 16 (w % 2 ^ nbits)

/-- The host's question: the instruction the decoder reads from those bits, laid out as memory stores
them (rule R70). -/
def decodeTableWord (nbits w : Nat) : Option Instr :=
  match decodeBytes (bytesOfWord (tableWord nbits w)) with
  | .ok (i, _) => some i
  | .error _ => none

end Sys2Proof
end

