-- ==== Sys2Proof/Machine/Unimplemented.lean ====
section
/-! DEFINITION. Machine/Unimplemented.lean: the words outside the nineteen patterns
(spec/46_unimplemented.md). Each executes the fallback of rule R140 with its own raw word, and a model
"must not give them their customary CHIP-8 meanings" (rule R141). -/

namespace Sys2Proof.Machine

/-- 8xy_ (rules R140, R141). -/
def execUnimpl8xy (x y : RegIdx) (n : Nibble) (s : State) : Result := unknownOpcode (encode (.unimpl8xy x y n)) s

/-- Bnnn (rules R140, R141). -/
def execUnimplBnnn (nnn : Addr) (s : State) : Result := unknownOpcode (encode (.unimplBnnn nnn)) s

/-- Fx0A (rules R140, R141). -/
def execUnimplFx0A (x : RegIdx) (s : State) : Result := unknownOpcode (encode (.unimplFx0A x)) s

/-- Fx29 (rules R140, R141). -/
def execUnimplFx29 (x : RegIdx) (s : State) : Result := unknownOpcode (encode (.unimplFx29 x)) s

/-- Fx33 (rules R140, R141). -/
def execUnimplFx33 (x : RegIdx) (s : State) : Result := unknownOpcode (encode (.unimplFx33 x)) s

/-- Fx55 (rules R140, R141). -/
def execUnimplFx55 (x : RegIdx) (s : State) : Result := unknownOpcode (encode (.unimplFx55 x)) s

/-- Fx65 (rules R140, R141). -/
def execUnimplFx65 (x : RegIdx) (s : State) : Result := unknownOpcode (encode (.unimplFx65 x)) s

/-- Every other word (rules R140, R142). -/
def execUnimplAny (op : Word) (s : State) : Result := unknownOpcode op s

end Sys2Proof.Machine
end

