-- ==== Sys2Proof/Machine/Dispatch.lean ====
section
/-! DEFINITION. Machine/Dispatch.lean: one arm per instruction (spec/40_cycle.md rule R95). -/

namespace Sys2Proof.Machine

/-- `Execute` (rule R95): the effect of the decoded instruction on the state whose pc has already
advanced (rule R94). The tick is not part of it (rule R96). -/
def exec (i : Instr) (s : State) : Host.Outcome State Fault Refusal :=
  match i with
  | .cls => Sys2Proof.Machine.execCls s
  | .ret => Sys2Proof.Machine.execRet s
  | .jp nnn => Sys2Proof.Machine.execJp nnn s
  | .call nnn => Sys2Proof.Machine.execCall nnn s
  | .seImm x nn => Sys2Proof.Machine.execSeImm x nn s
  | .sneImm x nn => Sys2Proof.Machine.execSneImm x nn s
  | .seReg x y => Sys2Proof.Machine.execSeReg x y s
  | .ldImm x nn => Sys2Proof.Machine.execLdImm x nn s
  | .addImm x nn => Sys2Proof.Machine.execAddImm x nn s
  | .sneReg x y => Sys2Proof.Machine.execSneReg x y s
  | .ldI nnn => Sys2Proof.Machine.execLdI nnn s
  | .rnd x nn => Sys2Proof.Machine.execRnd x nn s
  | .drw x y n => Sys2Proof.Machine.execDrw x y n s
  | .skp x => Sys2Proof.Machine.execSkp x s
  | .sknp x => Sys2Proof.Machine.execSknp x s
  | .ldVxDT x => Sys2Proof.Machine.execLdVxDT x s
  | .ldDTVx x => Sys2Proof.Machine.execLdDTVx x s
  | .ldSTVx x => Sys2Proof.Machine.execLdSTVx x s
  | .addI x => Sys2Proof.Machine.execAddI x s
  | .unimpl8xy x y n => Sys2Proof.Machine.execUnimpl8xy x y n s
  | .unimplBnnn nnn => Sys2Proof.Machine.execUnimplBnnn nnn s
  | .unimplFx0A x => Sys2Proof.Machine.execUnimplFx0A x s
  | .unimplFx29 x => Sys2Proof.Machine.execUnimplFx29 x s
  | .unimplFx33 x => Sys2Proof.Machine.execUnimplFx33 x s
  | .unimplFx55 x => Sys2Proof.Machine.execUnimplFx55 x s
  | .unimplFx65 x => Sys2Proof.Machine.execUnimplFx65 x s
  | .unimplAny op => Sys2Proof.Machine.execUnimplAny op s

end Sys2Proof.Machine
end

