-- ==== Sys2Proof/Machine/Step.lean ====
section
/-! DEFINITION. Machine/Step.lean: one cycle of the engine (spec/40_cycle.md rule R90) and the placement of
the host's word. -/

namespace Sys2Proof.Machine

/-- One cycle (rule R90). A halted core has no step (rule R91); with pc at or beyond the bound the
cycle is skipped (rule R92); else two bytes are fetched (rule R93), pc advances (rule R94), the decoded
instruction executes (rule R95), and the timers tick unless a fatal condition was raised (rules R96,
R99). -/
def step (s : State) : Host.Outcome State Fault Refusal :=
  match s.halted with
  | some c => .fault (.halted c)
  | none =>
    if s.pcOutOfBounds then .next s.skipCycle
    else endCycle (exec (decodeWord (wordOfBytes s.fetchBytes.1 s.fetchBytes.2)) s.startCycle)

/-- `s` with the host's instruction stored at pc, high byte first, where the next cycle fetches it
(rule R93). It stands for a load of that image (rule R34, log entry 4). -/
def State.withFetchWord (s : State) (nbits w : Nat) : State :=
  s.placeWord ((tableWord nbits w).extractLsb' 8 8) ((tableWord nbits w).extractLsb' 0 8)

end Sys2Proof.Machine
end

