-- ==== Sys2Proof/Machine/Boundary.lean ====
section
/-! DEFINITION. Machine/Boundary.lean: the boundary of the block (spec/10_state.md rules R33 to R37) and the
host's moves (spec/70_reset_and_hazards.md rules R178, R179). None of this is part of a cycle: the host
acts only between cycles. -/

namespace Sys2Proof.Machine

/-! ### Accessors and output signals -/

/-- The load-time error (rules R62, R157): the image has `len` bytes, more than fit. -/
inductive LoadError where
  | imageTooLarge (len : Nat)
  deriving DecidableEq, Repr

/-- `loadImage(bytes)` (rules R34, R62, R157): copies the bytes to memory from 0x200 upward; more than
3584 bytes are rejected and nothing is written (OVERSIZE_IMAGE_POLICY, decision D13). -/
def loadImage (bytes : List Byte) (s : State) : Except LoadError State :=
  if Config.maxImage < bytes.length then .error (.imageTooLarge bytes.length)
  else .ok (s.setMemory (Memory.writeBytes s.memory Config.loadBase.toNat bytes))

/-- `setKeys` (rule R35): replaces the whole snapshot. -/
def setKeys (k : Keys) (s : State) : State := s.setKeys k

/-- `getDisplay()` (rule R36): a read-only view. -/
def getDisplay (s : State) : Display := s.display

/-- The output `sound_active` (rules R33, R166): 1 exactly when sound_timer is not 0. -/
def soundActive (s : State) : Bool := s.soundTimer != 0

/-- The output `halted_out` (rule R33). -/
def haltedOut (s : State) : Option FatalCause := s.halted

/-- The output `diag` (rules R33, R37). -/
def diagOut (s : State) : Option Diag := s.diag

/-! ### Cause codes (rule R158) -/

/-- The number on `diag`: 0 none, 1 UnknownOpcode, 2 PcOutOfBounds (rule R158). -/
def diagCode : Option Diag → Nat
  | none => 0
  | some (.unknownOpcode _) => 1
  | some (.pcOutOfBounds _) => 2

/-- The number on `halted_out`: 0 none, 3 to 6 the fatal causes (rule R158). -/
def haltedCode : Option FatalCause → Nat
  | none => 0
  | some .stackUnderflow => 3
  | some .stackOverflow => 4
  | some (.keyIndexRange _) => 5
  | some (.spriteAddressRange _ _) => 6

/-- The number of a load's result: 0 none, 7 ImageTooLarge (rule R158). -/
def loadCode : Except LoadError State → Nat
  | .ok _ => 0
  | .error (.imageTooLarge _) => 7

/-! ### The host's moves -/

/-- How far a life of the machine has come (rule R178). It is not state of the core; it says which
moves the host has. -/
inductive Phase where
  /-- Just constructed: no image loaded, no cycle run. -/
  | constructed
  /-- The image is loaded, no cycle run. -/
  | loaded
  /-- A cycle has been invoked. -/
  | running
  deriving DecidableEq, Repr

/-- A life of the machine: the core and how far it has come (rule R178). -/
structure Life where
  phase : Phase
  core  : State
  deriving DecidableEq, Repr

/-- The host's moves that change something (rule R179). Reading an output changes nothing. -/
inductive HostMove where
  /-- `loadImage(bytes)`. -/
  | loadImage (bytes : List Byte)
  /-- `setKeys(k[0..15])`. -/
  | setKeys (k : Keys)
  /-- Invoke one cycle; the environment supplies `rnd` (`Config.rndByte`). -/
  | cycle
  deriving DecidableEq, Repr

/-- What a move answers. -/
inductive MoveResult where
  | moved (l : Life)
  /-- The load was rejected: no cell is written and no machine results (rule R62). -/
  | rejected (e : LoadError)
  /-- The cycle stopped the core (rules R91, R99). -/
  | stopped (f : Fault)
  /-- The cycle was refused; no arm of `exec` refuses. -/
  | refused (r : Refusal)
  /-- The host has no such move: a second load, or one after the first cycle (rules R63, R179). -/
  | noSuchMove
  deriving DecidableEq, Repr

/-- The life begins with the reset state (rules R175, R178 (1)). -/
def Life.start : Life := ⟨.constructed, State.reset⟩

/-- One move of the host (rules R178, R179). -/
def Life.move (l : Life) : HostMove → MoveResult
  | .loadImage bytes =>
    match l.phase with
    | .constructed =>
      match Machine.loadImage bytes l.core with
      | .ok s => .moved ⟨.loaded, s⟩
      | .error e => .rejected e
    | .loaded => .noSuchMove
    | .running => .noSuchMove
  | .setKeys k => .moved ⟨l.phase, Machine.setKeys k l.core⟩
  | .cycle =>
    match step l.core with
    | .next s => .moved ⟨.running, s⟩
    | .fault f => .stopped f
    | .refused r => .refused r

/-- The host's loop (rule R178 (3)): before each cycle the snapshot is replaced. One cycle per
snapshot of the list; it ends early where a cycle stops. -/
def hostRun : List Keys → State → Result
  | [], s => .next s
  | k :: ks, s =>
    match step (setKeys k s) with
    | .next s' => hostRun ks s'
    | .fault f => .fault f
    | .refused r => .refused r

end Sys2Proof.Machine
end

