-- ==== Sys2Proof/Safety.lean ====
section
/-! DEFINITION. Safety.lean: the terms in which statements about the machine are made: the table of what
each instruction reads and writes (spec/10_state.md rule R39), which fatal condition an instruction can
raise (spec/60_exceptions.md rule R160), the pixels a sprite covers (spec/41_display.md rule R106), the
invariant of a running machine, and the model's idle state (spec/70_reset_and_hazards.md rule R186). -/

namespace Sys2Proof.Safety

open Sys2Proof.Machine

/-- A piece of state, as rule R39 names it; `diag`, `events` and `draws` are outputs and the model's
own. -/
inductive Part where
  | v (r : RegIdx)
  | i
  | pc
  | stack
  | display
  | keys
  | delayTimer
  | soundTimer
  | mem (a : Addr)
  | halted
  | diag
  | events
  | draws
  deriving DecidableEq, Repr

/-- Two states hold the same there. -/
def Part.same (s t : State) : Part → Prop
  | .v r => t.getV r = s.getV r
  | .i => t.I = s.I
  | .pc => t.pc = s.pc
  | .stack => t.stack = s.stack
  | .display => t.display = s.display
  | .keys => t.keys = s.keys
  | .delayTimer => t.delayTimer = s.delayTimer
  | .soundTimer => t.soundTimer = s.soundTimer
  | .mem a => t.readByte a = s.readByte a
  | .halted => t.halted = s.halted
  | .diag => t.diag = s.diag
  | .events => t.events = s.events
  | .draws => t.draws = s.draws

/-- A frame: from `s` to `t` nothing changes outside the listed parts. -/
def UnchangedBut (ps : List Part) (s t : State) : Prop := ∀ p : Part, p ∉ ps → p.same s t

/-- The "writes" column of rule R39 (for a skip, pc "if taken"). Cxnn also moves the model's own
`draws` on; a word of the last row writes the outputs only. -/
def writes : Instr → List Part
  | .cls => [.display]
  | .ret => [.stack, .pc]
  | .jp _ => [.pc]
  | .call _ => [.stack, .pc]
  | .seImm _ _ => [.pc]
  | .sneImm _ _ => [.pc]
  | .seReg _ _ => [.pc]
  | .ldImm x _ => [.v x]
  | .addImm x _ => [.v x]
  | .sneReg _ _ => [.pc]
  | .ldI _ => [.i]
  | .rnd x _ => [.v x, .draws]
  | .drw _ _ _ => [.display, .v 0xF]
  | .skp _ => [.pc]
  | .sknp _ => [.pc]
  | .ldVxDT x => [.v x]
  | .ldDTVx _ => [.delayTimer]
  | .ldSTVx _ => [.soundTimer]
  | .addI _ => [.i]
  | .unimpl8xy _ _ _ => [.diag, .events]
  | .unimplBnnn _ => [.diag, .events]
  | .unimplFx0A _ => [.diag, .events]
  | .unimplFx29 _ => [.diag, .events]
  | .unimplFx33 _ => [.diag, .events]
  | .unimplFx55 _ => [.diag, .events]
  | .unimplFx65 _ => [.diag, .events]
  | .unimplAny _ => [.diag, .events]

/-- The cells `memory[I..I+n-1]` (rule R39). -/
def spriteCells (s : State) (n : Nibble) : List Part :=
  (List.range n.toNat).map fun r => .mem (BitVec.ofNat 12 (s.I.toNat + r))

/-- The "reads" column of rule R39. `rnd` is the byte the model's own `draws` selects. -/
def reads (s : State) : Instr → List Part
  | .cls => []
  | .ret => [.stack]
  | .jp _ => []
  | .call _ => [.pc]
  | .seImm x _ => [.v x]
  | .sneImm x _ => [.v x]
  | .seReg x y => [.v x, .v y]
  | .ldImm _ _ => []
  | .addImm x _ => [.v x]
  | .sneReg x y => [.v x, .v y]
  | .ldI _ => []
  | .rnd _ _ => [.draws]
  | .drw x y n => [.v x, .v y, .i, .display] ++ spriteCells s n
  | .skp x => [.v x, .keys]
  | .sknp x => [.v x, .keys]
  | .ldVxDT _ => [.delayTimer]
  | .ldDTVx x => [.v x]
  | .ldSTVx x => [.v x]
  | .addI x => [.i, .v x]
  | .unimpl8xy _ _ _ => []
  | .unimplBnnn _ => []
  | .unimplFx0A _ => []
  | .unimplFx29 _ => []
  | .unimplFx33 _ => []
  | .unimplFx55 _ => []
  | .unimplFx65 _ => []
  | .unimplAny _ => []

/-- The parts an instruction writes whose old value may stay or be extended, beside what it reads: a skip
that is not taken leaves pc (rule R39: pc "if taken"), 2nnn pushes onto the stack it does not look at
(rule R112), and the fallback appends to the model's own `events` (log entry 2). Every other instruction
replaces what it writes by a value computed from what it reads. -/
def keepsOrExtends : Instr → List Part
  | .seImm _ _ | .sneImm _ _ | .seReg _ _ | .sneReg _ _ | .skp _ | .sknp _ => [.pc]
  | .call _ => [.stack]
  | .unimpl8xy _ _ _ | .unimplBnnn _ | .unimplFx0A _ | .unimplFx29 _ | .unimplFx33 _ | .unimplFx55 _
  | .unimplFx65 _ | .unimplAny _ => [.events]
  | .cls | .ret | .jp _ | .ldImm _ _ | .addImm _ _ | .ldI _ | .rnd _ _ | .drw _ _ _ | .ldVxDT _
  | .ldDTVx _ | .ldSTVx _ | .addI _ => []

/-- The single fatal condition an instruction meets in a state, if its cause holds (rules R153 to R156,
R160 (4)). StackOverflow does not occur: STACK_DEPTH is unbounded (decision D6). -/
def fatalCondition (s : State) : Instr → Option FatalCause
  | .ret => if s.stack = [] then some .stackUnderflow else none
  | .skp x => if 16 ≤ (s.getV x).toNat then some (.keyIndexRange (s.getV x)) else none
  | .sknp x => if 16 ≤ (s.getV x).toNat then some (.keyIndexRange (s.getV x)) else none
  | .drw _ _ n =>
    if 0 < n.toNat ∧ 0xFFF < s.I.toNat + n.toNat - 1 then some (.spriteAddressRange s.I n) else none
  | .cls | .jp _ | .call _ | .seImm _ _ | .sneImm _ _ | .seReg _ _ | .ldImm _ _ | .addImm _ _
  | .sneReg _ _ | .ldI _ | .rnd _ _ | .ldVxDT _ | .ldDTVx _ | .ldSTVx _ | .addI _
  | .unimpl8xy _ _ _ | .unimplBnnn _ | .unimplFx0A _ | .unimplFx29 _ | .unimplFx33 _
  | .unimplFx55 _ | .unimplFx65 _ | .unimplAny _ => none

/-- Whether the sprite of Dxyn in `s` has a set bit that lands on the pixel (rule R106): some row
offset `r < n` and column offset `c < 8` whose bit `0x80 >> c` is set, with
`px = (V[x] + c) mod 64` and `py = (V[y] + r) mod 32`. -/
def spriteCovers (s : State) (x y : RegIdx) (n : Nibble) (px : Fin 64) (py : Fin 32) : Prop :=
  ∃ r c : Nat, r < n.toNat ∧ c < 8 ∧
    s.readByte (BitVec.ofNat 12 (s.I.toNat + r)) &&& (0x80#8 >>> c) ≠ 0 ∧
    px.val = ((s.getV x).toNat + c) % 64 ∧ py.val = ((s.getV y).toNat + r) % 32

/-- The rows of the sprite all lie in memory (rule R107): `n = 0`, or `I + n - 1 <= 0xFFF`. -/
def SpriteFits (s : State) (n : Nibble) : Prop := n.toNat = 0 ∨ s.I.toNat + n.toNat - 1 ≤ 0xFFF

/-- The condition of a skip (rules R116 to R121); none for another instruction, and none where a key
index is out of range (rule R122). -/
def skipCondition (s : State) : Instr → Option Bool
  | .seImm x nn => some (decide (s.getV x = nn))
  | .sneImm x nn => some (decide (s.getV x ≠ nn))
  | .seReg x y => some (decide (s.getV x = s.getV y))
  | .sneReg x y => some (decide (s.getV x ≠ s.getV y))
  | .skp x => if h : (s.getV x).toNat < 16 then some (s.keys[(s.getV x).toNat]'h) else none
  | .sknp x => if h : (s.getV x).toNat < 16 then some (!(s.keys[(s.getV x).toNat]'h)) else none
  | .cls | .ret | .jp _ | .call _ | .ldImm _ _ | .addImm _ _ | .ldI _ | .rnd _ _ | .drw _ _ _
  | .ldVxDT _ | .ldDTVx _ | .ldSTVx _ | .addI _ | .unimpl8xy _ _ _ | .unimplBnnn _ | .unimplFx0A _
  | .unimplFx29 _ | .unimplFx33 _ | .unimplFx55 _ | .unimplFx65 _ | .unimplAny _ => none

/-- The register an instruction names as its destination (rules R22, R23); Dxyn names none. -/
def destination : Instr → Option RegIdx
  | .ldImm x _ | .addImm x _ | .rnd x _ | .ldVxDT x => some x
  | .cls | .ret | .jp _ | .call _ | .seImm _ _ | .sneImm _ _ | .seReg _ _ | .sneReg _ _ | .ldI _
  | .drw _ _ _ | .skp _ | .sknp _ | .ldDTVx _ | .ldSTVx _ | .addI _ | .unimpl8xy _ _ _
  | .unimplBnnn _ | .unimplFx0A _ | .unimplFx29 _ | .unimplFx33 _ | .unimplFx55 _ | .unimplFx65 _
  | .unimplAny _ => none

/-- An encoding of rule R75: every word with those fixed bits decodes to that instruction. -/
def Encodes (mask pat : Word) (f : Word → Instr) : Prop := ∀ w : Word, w &&& mask = pat → decodeWord w = f w

/-- Two answers of an instruction agree in kind, and in the parts or the cause. -/
def SameEffect (ps : List Part) : Result → Result → Prop
  | .next t, .next t' => ∀ p ∈ ps, p.same t t'
  | .fault (.fatal c _), .fault (.fatal c' _) => c = c'
  | _, _ => False

/-- The next cycle fetches a word: the core is not halted and pc is below the bound (rules R91, R92). -/
def Fetches (s : State) : Prop := s.halted = none ∧ s.pc.toNat < 0xFFE

/-- The word the next cycle fetches (rule R93): `memory[pc] * 256 + memory[pc + 1]`. -/
def fetched (s : State) : Word := wordOfBytes (s.readByte s.pc) (s.readByte (s.pc + 1))

/-- The instruction the next cycle executes where it fetches (rule R95). -/
def current (s : State) : Instr := decodeWord (fetched s)

/-- The invariant of a running machine. Memory is in its canonical form; the reserved area
0x000..0x1FF holds 0 (rule R21); the core is not halted, since a fatal condition ends the run (rules R10
(c), R91); and the diagnostic on the output, if there is one, is the last of the event log (rules R10
(b), R37). -/
structure Inv (s : State) : Prop where
  memWf    : Memory.wf s.memory = true
  lowZero  : ∀ a : Addr, a.toNat < 0x200 → s.readByte a = 0
  notHalted : s.halted = none
  lastDiag : ∀ d, s.diag = some d → s.events.getLast? = some d

/-- The MODEL's notion of a finished program, not the hardware's (rule R186, decision D22): the word at pc
jumps to pc itself, and both timers are 0. -/
def Idle (s : State) : Prop := Fetches s ∧ current s = .jp s.pc ∧ s.delayTimer = 0 ∧ s.soundTimer = 0

end Sys2Proof.Safety
end

