-- ==== Sys2Proof/Certificates/Slice0/Obligations.lean ====
section
/-! DEFINITION. Certificates/Slice0/Obligations.lean: the statements for the provers, each from the spec's
numbered rules. `UnchangedBut ps s t` is a frame: every register, `I`, `pc`, the stack, the display, the
keys, both timers, EVERY byte of memory, `halted`, `diag` and the model's own fields are as before,
outside the listed parts (Sys2Proof/Safety.lean). -/

open Sys2Proof Sys2Proof.Machine Sys2Proof.Safety

/-! ### Reset, invariant -/

/-- Rule R38: every field at reset, and the outputs. -/
def Obligations.ResetHoldsTheStatedValues : Prop :=
  (∀ a : Addr, State.reset.readByte a = 0) ∧ (∀ r : RegIdx, State.reset.getV r = 0) ∧
    State.reset.I = 0 ∧ State.reset.pc = 0x200 ∧ State.reset.stack = [] ∧
    (∀ px py, State.reset.display.pixel px py = false) ∧
    State.reset.delayTimer = 0 ∧ State.reset.soundTimer = 0 ∧
    (∀ k : Fin 16, State.reset.keys[k] = false) ∧ State.reset.halted = none ∧
    diagOut State.reset = none ∧ soundActive State.reset = false

/-- The invariant of a running machine holds at reset. -/
def Obligations.InvariantAtReset : Prop := Inv State.reset

/-- Every step that answers a next state keeps the invariant: memory canonical, the reserved area zero
(rule R21), the core not halted (rules R10 (c), R91), the diagnostic on the output the last of the event
log (rules R10 (b), R37; the log is the model's own, log entry 2). -/
def Obligations.StepKeepsInvariant : Prop := ∀ s t : State, Inv s → step s = .next t → Inv t

/-- Loading an image keeps the invariant. -/
def Obligations.LoadKeepsInvariant : Prop :=
  ∀ (bytes : List Byte) (s t : State), Inv s → loadImage bytes s = .ok t → Inv t

/-! ### Decoding and encoding -/

/-- Rule R81: `decode(encode(i)) = i` for every well-formed instruction, every operand at every value,
and `Unimplemented(op)` encodes as op. -/
def Obligations.DecodeEncodeRoundTrip : Prop :=
  (∀ i : Instr, i.wf = true → decodeWord (encode i) = i) ∧ (∀ op : Word, encode (.unimplAny op) = op)

/-- Every word decodes, to a well-formed instruction that encodes as that word (rules R77, R81). -/
def Obligations.EncodeDecodeRoundTrip : Prop :=
  ∀ w : Word, encode (decodeWord w) = w ∧ (decodeWord w).wf = true

/-- Rules R75, R81: the decoded instruction's row of the opcode table selects the word; the word decodes
to an implemented instruction exactly if one of the nineteen implemented rows selects it. -/
def Obligations.DecoderFollowsTheOpcodeTable : Prop :=
  ∀ w : Word, (decodeWord w).row.selects w = true ∧
    ((decodeWord w).implemented = true ↔ ∃ r ∈ implementedRows, r.selects w = true)

/-- Rules R74, R81: the rows of the table other than the catch-all are pairwise disjoint. -/
def Obligations.OpcodeRowsAreDisjoint : Prop :=
  (implementedRows ++ namedUnimplementedRows).Pairwise fun r r' =>
    ∀ w : Word, ¬(r.selects w = true ∧ r'.selects w = true)

/-- Rule R76: the fixed digits are matched strictly. -/
def Obligations.FixedDigitsAreMatchedStrictly : Prop :=
  ∀ w : Word,
    (w &&& 0xF000 = 0x5000 → w &&& 0x000F ≠ 0 → (decodeWord w).implemented = false) ∧
    (w &&& 0xF000 = 0x9000 → w &&& 0x000F ≠ 0 → (decodeWord w).implemented = false) ∧
    (w &&& 0xF000 = 0x0000 → w ≠ 0x00E0 → w ≠ 0x00EE → (decodeWord w).implemented = false) ∧
    (w &&& 0xF000 = 0xE000 → w &&& 0x00FF ≠ 0x9E → w &&& 0x00FF ≠ 0xA1 → (decodeWord w).implemented = false) ∧
    (w &&& 0xF000 = 0xF000 → w &&& 0x00FF ≠ 0x07 → w &&& 0x00FF ≠ 0x15 → w &&& 0x00FF ≠ 0x18 →
      w &&& 0x00FF ≠ 0x1E → (decodeWord w).implemented = false)

/-- Words of each family, written out from the encodings of rules R72 and R75, decode to their
instructions; the bytes are read high byte first (rule R70). -/
def Obligations.SampleWordsDecode : Prop :=
  decodeBytes [0x00, 0xE0] = .ok (.cls, []) ∧ decodeBytes [0x00, 0xEE] = .ok (.ret, []) ∧
    decodeBytes [0x3A, 0x7F] = .ok (.seImm 0xA 0x7F, []) ∧ decodeBytes [0x9A, 0x10] = .ok (.sneReg 0xA 0x1, []) ∧
    decodeBytes [0xA2, 0xF0] = .ok (.ldI 0x2F0, []) ∧ decodeBytes [0xD1, 0x25] = .ok (.drw 0x1 0x2 0x5, []) ∧
    decodeBytes [0xE7, 0xA1] = .ok (.sknp 0x7, []) ∧ decodeBytes [0xF9, 0x15] = .ok (.ldDTVx 0x9, []) ∧
    decodeBytes [0x8A, 0xB4] = .ok (.unimpl8xy 0xA 0xB 0x4, []) ∧ decodeBytes [0x5A, 0xB1] = .ok (.unimplAny 0x5AB1, [])

/-! ### The cycle -/

/-- A STEP RUNS THE DECODED INSTRUCTION (rules R90, R93 to R96, R99): where the core is not halted and pc
is below 0xFFE, the two bytes at pc, high byte first, decode to an instruction, and the step is `exec`
of it on the state with no diagnostic and pc advanced by 2, and then the tick of both timers unless it
stopped. -/
def Obligations.StepRunsTheDecodedInstruction : Prop :=
  ∀ (s : State) (hi lo : Byte) (i : Instr),
    s.halted = none → s.pc.toNat < 0xFFE → s.readByte s.pc = hi → s.readByte (s.pc + 1) = lo →
    decodeWord (BitVec.ofNat 16 (hi.toNat * 256 + lo.toNat)) = i →
    step s =
      match exec i { s with diag := none, pc := s.pc + 2 } with
      | .next u => .next { u with
          delayTimer := if u.delayTimer = 0 then 0 else u.delayTimer - 1,
          soundTimer := if u.soundTimer = 0 then 0 else u.soundTimer - 1 }
      | .fault f => .fault f
      | .refused r => .refused r

/-- Rule R91: a halted core has no step. -/
def Obligations.HaltedCoreHasNoStep : Prop :=
  ∀ (s : State) (c : FatalCause), s.halted = some c → step s = .fault (.halted c)

/-- Rules R92, R152: with pc at or beyond 0xFFE every cycle, the first and all later ones, is skipped:
its whole effect is the diagnostic PcOutOfBounds(pc), once per cycle (counted in the model's own event log,
log entry 2). -/
def Obligations.OutOfBoundsCyclesAreSkippedForEver : Prop :=
  ∀ (s : State) (k : Nat), s.halted = none → 0xFFE ≤ s.pc.toNat →
    ∃ t : State, Host.Core.run Sys2Proof.core k s = .next t ∧ UnchangedBut [.diag, .events] s t ∧
      t.events = s.events ++ List.replicate k (.pcOutOfBounds s.pc) ∧
      (0 < k → t.diag = some (.pcOutOfBounds s.pc))

/-- Rule R96: the tick. After the instruction each timer loses one if it is not 0; not in a skipped
cycle, and not in a fatal one. -/
def Obligations.TimersTickOncePerFetchedCycle : Prop :=
  ∀ s : State,
    (Fetches s → ∀ u, exec (current s) s.startCycle = .next u →
      ∃ t, step s = .next t ∧ t.delayTimer.toNat = u.delayTimer.toNat - 1 ∧
        t.soundTimer.toNat = u.soundTimer.toNat - 1 ∧ UnchangedBut [.delayTimer, .soundTimer] u t) ∧
    (s.halted = none → 0xFFE ≤ s.pc.toNat →
      ∃ t, step s = .next t ∧ t.delayTimer = s.delayTimer ∧ t.soundTimer = s.soundTimer) ∧
    (∀ c u, step s = .fault (.fatal c u) → u.delayTimer = s.delayTimer ∧ u.soundTimer = s.soundTimer)

/-- Rule R99: a fatal condition ends the cycle precisely: none of the instruction's writes, pc advanced,
no tick, `halted` set to the cause, no diagnostic. -/
def Obligations.FatalConditionsArePrecise : Prop :=
  ∀ (s u : State) (c : FatalCause), step s = .fault (.fatal c u) →
    u.pc = s.pc + 2 ∧ u.halted = some c ∧ u.diag = none ∧ UnchangedBut [.pc, .halted, .diag] s u

/-- Rule R160: the checks of one invocation, in their order; each case says what the cycle answers. -/
def Obligations.ChecksAreMadeInOrder : Prop :=
  ∀ s : State,
    match s.halted with
    | some c => step s = .fault (.halted c)
    | none =>
      if 0xFFE ≤ s.pc.toNat then
        ∃ t, step s = .next t ∧ t.diag = some (.pcOutOfBounds s.pc) ∧ UnchangedBut [.diag, .events] s t
      else if (current s).implemented = false then
        ∃ t, step s = .next t ∧ t.diag = some (.unknownOpcode (fetched s))
      else
        match fatalCondition s (current s) with
        | some c => ∃ u, step s = .fault (.fatal c u)
        | none => ∃ t, step s = .next t ∧ t.diag = none

/-- Rule R97: a cycle emits at most one diagnostic, exactly the one its case names, and an unknown opcode
leaves all registers, memory and the display unchanged. -/
def Obligations.OneDiagnosticPerCycle : Prop :=
  ∀ s t : State, step s = .next t →
    t.events = s.events ++ t.diag.toList ∧
    ((t.diag = none ∧ s.pc.toNat < 0xFFE ∧ (current s).implemented = true) ∨
     (t.diag = some (.pcOutOfBounds s.pc) ∧ 0xFFE ≤ s.pc.toNat) ∨
     (t.diag = some (.unknownOpcode (fetched s)) ∧ s.pc.toNat < 0xFFE ∧ (current s).implemented = false ∧
       UnchangedBut [.pc, .delayTimer, .soundTimer, .diag, .events] s t))

/-- Rule R187: from every state that is not halted a cycle has an outcome, a next state that is not halted
or a fatal stop; it is never refused. -/
def Obligations.RunningCoreAlwaysSteps : Prop :=
  ∀ s : State, s.halted = none →
    (∃ t, step s = .next t ∧ t.halted = none) ∨ (∃ c u, step s = .fault (.fatal c u))

/-- Rules R25, R94: after a fetched cycle of an instruction that is no jump, call, return or skip, pc is
the fetch address + 2, without a wrap. -/
def Obligations.SequentialInstructionsAdvanceByTwo : Prop :=
  ∀ s t : State, Fetches s → step s = .next t → Part.pc ∉ writes (current s) →
    t.pc.toNat = s.pc.toNat + 2

/-! ### What instructions change, all together -/

/-- Rule R39, the "writes" column: no instruction changes anything outside its row, and a cycle adds only
pc's advance, the tick and the diagnostic output. -/
def Obligations.FrameOfEveryInstruction : Prop :=
  (∀ (i : Instr) (s t : State), exec i s = .next t → UnchangedBut (writes i) s t) ∧
  (∀ s t : State, Fetches s → step s = .next t →
    UnchangedBut (writes (current s) ++ [.pc, .delayTimer, .soundTimer, .diag]) s t)

/-- Rule R39, the "reads" column, as non-interference: two states that agree on what the table lists for
an instruction get the same answer from it, in kind, cause and every part it writes, whatever else they
hold: the old values of what it writes too, but for the one part that an untaken skip keeps (pc), a call
extends (the stack) or the fallback extends (`events`). (The random byte is the one `draws` selects;
`events` and `draws` are the model's own, log entries 1 and 2.) -/
def Obligations.EffectDependsOnlyOnReads : Prop :=
  ∀ (i : Instr) (s s' : State), (∀ p ∈ reads s i ++ keepsOrExtends i, p.same s s') →
    SameEffect (writes i) (exec i s) (exec i s')

/-- An instruction stops exactly on its one fatal condition (rules R153 to R156, R160 (4)), precisely, and
on every other state and operand it completes; none is refused. -/
def Obligations.InstructionsCompleteUnlessFatal : Prop :=
  ∀ (i : Instr) (s : State),
    match fatalCondition s i with
    | some c => exec i s = .fault (.fatal c { s with halted := some c })
    | none => ∃ t, exec i s = .next t

/-- Rule R56: no instruction writes memory, so it is constant over any run of the host's loop, whatever
the key snapshots. -/
def Obligations.MemoryIsConstantAfterLoad : Prop :=
  (∀ s t : State, step s = .next t → t.memory = s.memory) ∧
  (∀ (ks : List Keys) (s t : State), hostRun ks s = .next t → t.memory = s.memory)

/-- Rule R26: in one cycle the stack is unchanged, or 2nnn pushed the address after itself, or 00EE popped
the entry that is now in pc. -/
def Obligations.StackChangesByOneEntry : Prop :=
  ∀ s t : State, step s = .next t →
    t.stack = s.stack ∨ (∃ nnn, current s = .call nnn ∧ t.stack = (s.pc + 2) :: s.stack ∧ t.pc = nnn) ∨
      (current s = .ret ∧ s.stack = t.pc :: t.stack)

/-- Rule R23: only Dxyn writes VF without naming it as its destination. -/
def Obligations.OnlyDrawWritesVFImplicitly : Prop :=
  ∀ (i : Instr) (s t : State), exec i s = .next t → t.getV 0xF ≠ s.getV 0xF →
    (∃ x y n, i = .drw x y n) ∨ destination i = some 0xF

/-! ### Display -/

/-- Rule R105: 00E0 clears the display and changes nothing else; VF is not written. -/
def Obligations.ClsClearsTheDisplay : Prop :=
  Encodes 0xFFFF 0x00E0 (fun _ => .cls) ∧
  ∀ s : State, ∃ t, exec .cls s = .next t ∧ (∀ px py, (getDisplay t).pixel px py = false) ∧
    UnchangedBut [.display] s t

/-- Rule R106: where the sprite lies in memory, Dxyn flips exactly the pixels a set sprite bit lands on,
columns mod 64 and rows mod 32, and VF becomes 1 if one of them was lit, else 0; where it does not, the one
condition raised is SpriteAddressRange. -/
def Obligations.DrwXorsTheSprite : Prop :=
  Encodes 0xF000 0xD000 (fun w => .drw (w.extractLsb' 8 4) (w.extractLsb' 4 4) (w.extractLsb' 0 4)) ∧
  (∀ (x y : RegIdx) (n : Nibble) (s : State), SpriteFits s n →
    ∃ t, exec (.drw x y n) s = .next t ∧
      (∀ px py, t.display.pixel px py = true ↔
        (s.display.pixel px py = true ↔ ¬ spriteCovers s x y n px py)) ∧
      ((∃ px py, spriteCovers s x y n px py ∧ s.display.pixel px py = true) → t.getV 0xF = 1) ∧
      ((¬ ∃ px py, spriteCovers s x y n px py ∧ s.display.pixel px py = true) → t.getV 0xF = 0) ∧
      UnchangedBut [.display, .v 0xF] s t) ∧
  (∀ (x y : RegIdx) (n : Nibble) (s : State), ¬ SpriteFits s n →
    ∃ u, exec (.drw x y n) s = .fault (.fatal (.spriteAddressRange s.I n) u))

/-- Rule R107: a sprite with a row above 0xFFF is the fatal condition SpriteAddressRange(I, n), with no
effect on VF or the display; it depends on I and n only. -/
def Obligations.DrwStopsBeyondMemory : Prop :=
  ∀ (x y : RegIdx) (n : Nibble) (s : State),
    (0 < n.toNat ∧ 0xFFF < s.I.toNat + n.toNat - 1 →
      exec (.drw x y n) s =
        .fault (.fatal (.spriteAddressRange s.I n) { s with halted := some (.spriteAddressRange s.I n) })) ∧
    (¬(0 < n.toNat ∧ 0xFFF < s.I.toNat + n.toNat - 1) → ∀ f, exec (.drw x y n) s ≠ .fault f)

/-- Rule R108: with x = F or y = F the coordinate is VF's value from before the instruction: the drawing is
the one that any registers with the values of V[x] and V[y] before the instruction would give. -/
def Obligations.DrwReadsItsOperandsFirst : Prop :=
  ∀ (x y x' y' : RegIdx) (n : Nibble) (s : State), SpriteFits s n →
    s.getV x' = s.getV x → s.getV y' = s.getV y →
    ∃ t t', exec (.drw x y n) s = .next t ∧ exec (.drw x' y' n) s = .next t' ∧
      t.display = t'.display ∧ t.getV 0xF = t'.getV 0xF

/-- The source's property S3 (rule R106): drawing the same sprite at the same place twice restores the
display; from a clear display VF is 0 after the first draw, and after the second it is 1 if the sprite
has a set bit. x and y are not F, since the first draw writes VF. -/
def Obligations.DrawingTwiceRestoresTheDisplay : Prop :=
  ∀ (x y : RegIdx) (n : Nibble) (s : State), SpriteFits s n → x ≠ 0xF → y ≠ 0xF →
    ∃ t u, exec (.drw x y n) s = .next t ∧ exec (.drw x y n) t = .next u ∧ u.display = s.display ∧
      ((∀ px py, s.display.pixel px py = false) →
        t.getV 0xF = 0 ∧ ((∃ px py, spriteCovers s x y n px py) → u.getV 0xF = 1))

/-! ### Control transfer -/

/-- Rule R110: 00EE pops the top of the stack into pc; on an empty stack it is the fatal condition. -/
def Obligations.RetPopsOrUnderflows : Prop :=
  Encodes 0xFFFF 0x00EE (fun _ => .ret) ∧
  (∀ (s : State) (a : Addr) (rest : List Addr), s.stack = a :: rest →
    ∃ t, exec .ret s = .next t ∧ t.pc = a ∧ t.stack = rest ∧ UnchangedBut [.pc, .stack] s t) ∧
  (∀ s : State, s.stack = [] →
    exec .ret s = .fault (.fatal .stackUnderflow { s with halted := some .stackUnderflow }))

/-- Rule R111: 1nnn sets pc, to any target, and changes nothing else. -/
def Obligations.JpSetsPc : Prop :=
  Encodes 0xF000 0x1000 (fun w => .jp (w.extractLsb' 0 12)) ∧
  ∀ (nnn : Addr) (s : State), ∃ t, exec (.jp nnn) s = .next t ∧ t.pc = nnn ∧ UnchangedBut [.pc] s t

/-- Rule R112: 2nnn pushes the advanced pc and sets pc; with the unbounded stack it never fails. -/
def Obligations.CallPushesAndJumps : Prop :=
  Encodes 0xF000 0x2000 (fun w => .call (w.extractLsb' 0 12)) ∧
  ∀ (nnn : Addr) (s : State), ∃ t, exec (.call nnn) s = .next t ∧ t.pc = nnn ∧ t.stack = s.pc :: s.stack ∧
    UnchangedBut [.pc, .stack] s t

/-- The source's property S6 (rules R110, R112): a cycle of 2nnn, then a cycle of 00EE in any running state
with the stack the call left, returns to the word after the 2nnn with the stack of before. -/
def Obligations.CallThenReturnComesBack : Prop :=
  ∀ (s u : State) (nnn : Addr), Fetches s → current s = .call nnn → Fetches u → current u = .ret →
    ∃ t, step s = .next t ∧ t.pc = nnn ∧
      (u.stack = t.stack → ∃ v, step u = .next v ∧ v.pc.toNat = s.pc.toNat + 2 ∧ v.stack = s.stack)

/-! ### Skips -/

/-- Rule R115: a skip advances pc by 4 in total when its condition holds, else by 2 (mod 4096, rule R123),
changes nothing else, and gives no diagnostic. -/
def Obligations.SkipsAdvanceByFourOrTwo : Prop :=
  ∀ (s : State) (b : Bool), Fetches s → skipCondition s (current s) = some b →
    ∃ t, step s = .next t ∧ t.pc.toNat = (s.pc.toNat + if b then 4 else 2) % 4096 ∧ t.diag = none ∧
      UnchangedBut [.pc, .delayTimer, .soundTimer, .diag] s t

/-- Rule R116: 3xnn skips if V[x] equals nn. -/
def Obligations.SeImmSkipsIfEqual : Prop :=
  Encodes 0xF000 0x3000 (fun w => .seImm (w.extractLsb' 8 4) (w.extractLsb' 0 8)) ∧
  ∀ (x : RegIdx) (nn : Byte) (s : State), ∃ t, exec (.seImm x nn) s = .next t ∧
    t.pc.toNat = (if s.getV x = nn then (s.pc.toNat + 2) % 4096 else s.pc.toNat) ∧ UnchangedBut [.pc] s t

/-- Rule R117: 4xnn skips if V[x] differs from nn; for the same operands exactly one of 3xnn, 4xnn skips. -/
def Obligations.SneImmSkipsIfDifferent : Prop :=
  Encodes 0xF000 0x4000 (fun w => .sneImm (w.extractLsb' 8 4) (w.extractLsb' 0 8)) ∧
  ∀ (x : RegIdx) (nn : Byte) (s : State), ∃ t, exec (.sneImm x nn) s = .next t ∧
    t.pc.toNat = (if s.getV x ≠ nn then (s.pc.toNat + 2) % 4096 else s.pc.toNat) ∧ UnchangedBut [.pc] s t ∧
    ∃ u, exec (.seImm x nn) s = .next u ∧ (u.pc = s.pc + 2 ↔ t.pc ≠ s.pc + 2)

/-- Rule R118: 5xy0 skips if V[x] equals V[y]; with x = y always. A word 5xyN with N not 0 is not it. -/
def Obligations.SeRegSkipsIfEqual : Prop :=
  Encodes 0xF00F 0x5000 (fun w => .seReg (w.extractLsb' 8 4) (w.extractLsb' 4 4)) ∧
  (∀ w : Word, w &&& 0xF000 = 0x5000 → w &&& 0x000F ≠ 0 → decodeWord w = .unimplAny w) ∧
  ∀ (x y : RegIdx) (s : State), ∃ t, exec (.seReg x y) s = .next t ∧
    t.pc.toNat = (if s.getV x = s.getV y then (s.pc.toNat + 2) % 4096 else s.pc.toNat) ∧
    (x = y → t.pc = s.pc + 2) ∧ UnchangedBut [.pc] s t

/-- Rule R119: 9xy0 skips if V[x] differs from V[y]; with x = y never. A word 9xyN with N not 0 is not it. -/
def Obligations.SneRegSkipsIfDifferent : Prop :=
  Encodes 0xF00F 0x9000 (fun w => .sneReg (w.extractLsb' 8 4) (w.extractLsb' 4 4)) ∧
  (∀ w : Word, w &&& 0xF000 = 0x9000 → w &&& 0x000F ≠ 0 → decodeWord w = .unimplAny w) ∧
  ∀ (x y : RegIdx) (s : State), ∃ t, exec (.sneReg x y) s = .next t ∧
    t.pc.toNat = (if s.getV x ≠ s.getV y then (s.pc.toNat + 2) % 4096 else s.pc.toNat) ∧
    (x = y → t.pc = s.pc) ∧ UnchangedBut [.pc] s t

/-- Rule R120: Ex9E skips if the key V[x] of the snapshot is down, for V[x] <= 15; for V[x] > 15 it is the
fatal condition KeyIndexRange. -/
def Obligations.SkpSkipsIfKeyDown : Prop :=
  Encodes 0xF0FF 0xE09E (fun w => .skp (w.extractLsb' 8 4)) ∧
  ∀ (x : RegIdx) (s : State),
    (∀ h : (s.getV x).toNat < 16, ∃ t, exec (.skp x) s = .next t ∧
      t.pc.toNat = (if s.keys[(s.getV x).toNat]'h = true then (s.pc.toNat + 2) % 4096 else s.pc.toNat) ∧
      UnchangedBut [.pc] s t) ∧
    (16 ≤ (s.getV x).toNat → ∃ u, exec (.skp x) s = .fault (.fatal (.keyIndexRange (s.getV x)) u))

/-- Rule R121: ExA1 skips if the key V[x] of the snapshot is up, for V[x] <= 15, so that exactly one of
Ex9E, ExA1 skips; for V[x] > 15 it is the fatal condition KeyIndexRange. -/
def Obligations.SknpSkipsIfKeyUp : Prop :=
  Encodes 0xF0FF 0xE0A1 (fun w => .sknp (w.extractLsb' 8 4)) ∧
  ∀ (x : RegIdx) (s : State),
    (∀ h : (s.getV x).toNat < 16, ∃ t, exec (.sknp x) s = .next t ∧
      t.pc.toNat = (if s.keys[(s.getV x).toNat]'h = false then (s.pc.toNat + 2) % 4096 else s.pc.toNat) ∧
      UnchangedBut [.pc] s t ∧
      ∃ u, exec (.skp x) s = .next u ∧ (u.pc = s.pc + 2 ↔ t.pc ≠ s.pc + 2)) ∧
    (16 ≤ (s.getV x).toNat → ∃ u, exec (.sknp x) s = .fault (.fatal (.keyIndexRange (s.getV x)) u))

/-- Rule R122: a cycle of Ex9E or ExA1 with V[x] >= 16 is the fatal condition KeyIndexRange(V[x]), with pc
the fetch address + 2 and no skip taken, ended as rule R99 says. -/
def Obligations.KeyIndexOutOfRangeIsFatal : Prop :=
  ∀ (x : RegIdx) (s : State), Fetches s → (current s = .skp x ∨ current s = .sknp x) →
    16 ≤ (s.getV x).toNat →
    step s = .fault (.fatal (.keyIndexRange (s.getV x))
      { s with diag := none, pc := s.pc + 2, halted := some (.keyIndexRange (s.getV x)) })

/-- Rule R123: a taken skip fetched at 0xFFC or 0xFFD leaves pc at 0x000 or 0x001, and the next cycle
fetches 0x0000, an unimplemented word, from the reserved area (which holds zeros by the invariant); no other
cycle leaves pc below the address it fetched from but one that loads pc from a 12-bit field or the stack. -/
def Obligations.SkipAtTheTopOfMemoryWraps : Prop :=
  (∀ s : State, Fetches s → skipCondition s (current s) = some true →
    (s.pc = 0xFFC → ∃ t, step s = .next t ∧ t.pc = 0x000 ∧ (Inv s → current t = .unimplAny 0x0000)) ∧
    (s.pc = 0xFFD → ∃ t, step s = .next t ∧ t.pc = 0x001 ∧ (Inv s → current t = .unimplAny 0x0000))) ∧
  (∀ s t : State, step s = .next t → t.pc.toNat < s.pc.toNat →
    (∃ nnn, current s = .jp nnn ∨ current s = .call nnn) ∨ current s = .ret ∨
      (skipCondition s (current s) = some true ∧ (s.pc = 0xFFC ∨ s.pc = 0xFFD)))

/-! ### Register, index and random operations -/

/-- Rule R125: 6xnn loads nn, into VF as into any register. -/
def Obligations.LdImmLoadsTheImmediate : Prop :=
  Encodes 0xF000 0x6000 (fun w => .ldImm (w.extractLsb' 8 4) (w.extractLsb' 0 8)) ∧
  ∀ (x : RegIdx) (nn : Byte) (s : State), ∃ t, exec (.ldImm x nn) s = .next t ∧ t.getV x = nn ∧
    UnchangedBut [.v x] s t

/-- Rule R126: 7xnn adds mod 256 and records no carry. -/
def Obligations.AddImmAddsModulo256 : Prop :=
  Encodes 0xF000 0x7000 (fun w => .addImm (w.extractLsb' 8 4) (w.extractLsb' 0 8)) ∧
  ∀ (x : RegIdx) (nn : Byte) (s : State), ∃ t, exec (.addImm x nn) s = .next t ∧
    (t.getV x).toNat = ((s.getV x).toNat + nn.toNat) % 256 ∧ UnchangedBut [.v x] s t

/-- Rule R127: Annn loads I. -/
def Obligations.LdILoadsTheIndex : Prop :=
  Encodes 0xF000 0xA000 (fun w => .ldI (w.extractLsb' 0 12)) ∧
  ∀ (nnn : Addr) (s : State), ∃ t, exec (.ldI nnn) s = .next t ∧ t.I = nnn ∧ UnchangedBut [.i] s t

/-- Rule R128: Cxnn writes the random byte masked by nn, whatever the byte is, and the next draw is a
fresh one (`draws`, the model's own, log entry 1). With nn = 0 the result is 0, with nn = 0xFF the byte. -/
def Obligations.RndMasksTheRandomByte : Prop :=
  Encodes 0xF000 0xC000 (fun w => .rnd (w.extractLsb' 8 4) (w.extractLsb' 0 8)) ∧
  ∀ (x : RegIdx) (nn : Byte) (s : State), ∃ t, exec (.rnd x nn) s = .next t ∧
    t.getV x = Config.rndByte s.draws &&& nn ∧ t.draws = s.draws + 1 ∧
    (nn = 0x00 → t.getV x = 0) ∧ (nn = 0xFF → t.getV x = Config.rndByte s.draws) ∧
    UnchangedBut [.v x, .draws] s t

/-- Rule R129: Fx1E adds V[x] to I mod 4096; VF is not written. -/
def Obligations.AddIAddsModulo4096 : Prop :=
  Encodes 0xF0FF 0xF01E (fun w => .addI (w.extractLsb' 8 4)) ∧
  ∀ (x : RegIdx) (s : State), ∃ t, exec (.addI x) s = .next t ∧
    t.I.toNat = (s.I.toNat + (s.getV x).toNat) % 4096 ∧ UnchangedBut [.i] s t

/-! ### Timers -/

/-- Rule R135: Fx07 reads the delay timer as it stood at the start of the cycle; the tick follows. -/
def Obligations.Fx07ReadsTheDelayTimer : Prop :=
  Encodes 0xF0FF 0xF007 (fun w => .ldVxDT (w.extractLsb' 8 4)) ∧
  (∀ (x : RegIdx) (s : State), ∃ t, exec (.ldVxDT x) s = .next t ∧ t.getV x = s.delayTimer ∧
    UnchangedBut [.v x] s t) ∧
  (∀ (x : RegIdx) (s : State), Fetches s → current s = .ldVxDT x →
    ∃ t, step s = .next t ∧ t.getV x = s.delayTimer ∧ t.delayTimer.toNat = s.delayTimer.toNat - 1)

/-- Rule R136: Fx15 sets the delay timer; the tick of the same cycle then decrements it (rule R138). -/
def Obligations.Fx15SetsTheDelayTimer : Prop :=
  Encodes 0xF0FF 0xF015 (fun w => .ldDTVx (w.extractLsb' 8 4)) ∧
  (∀ (x : RegIdx) (s : State), ∃ t, exec (.ldDTVx x) s = .next t ∧ t.delayTimer = s.getV x ∧
    UnchangedBut [.delayTimer] s t) ∧
  (∀ (x : RegIdx) (s : State), Fetches s → current s = .ldDTVx x →
    ∃ t, step s = .next t ∧ t.delayTimer.toNat = (s.getV x).toNat - 1)

/-- Rule R137: Fx18 sets the sound timer; the tick of the same cycle then decrements it, so that a 1 is
never seen on `sound_active` (rules R33, R138, R182). -/
def Obligations.Fx18SetsTheSoundTimer : Prop :=
  Encodes 0xF0FF 0xF018 (fun w => .ldSTVx (w.extractLsb' 8 4)) ∧
  (∀ (x : RegIdx) (s : State), ∃ t, exec (.ldSTVx x) s = .next t ∧ t.soundTimer = s.getV x ∧
    UnchangedBut [.soundTimer] s t) ∧
  (∀ (x : RegIdx) (s : State), Fetches s → current s = .ldSTVx x →
    ∃ t, step s = .next t ∧ t.soundTimer.toNat = (s.getV x).toNat - 1 ∧
      (soundActive t = true ↔ 1 < (s.getV x).toNat))

/-! ### Unimplemented words -/

/-- The fallback of every constructor for an unimplemented word (rule R140): unimpl8xy, unimplBnnn,
unimplFx0A, unimplFx29, unimplFx33, unimplFx55, unimplFx65, unimplAny, each with every operand: the one
diagnostic with the raw word, recorded in the model's own event log (log entry 2), and nothing else. -/
def Obligations.UnimplementedInstructionsOnlyWarn : Prop :=
  ∀ (i : Instr) (s : State), i.implemented = false →
    ∃ t, exec i s = .next t ∧ t.diag = some (.unknownOpcode (encode i)) ∧
      t.events = s.events ++ [.unknownOpcode (encode i)] ∧ UnchangedBut [.diag, .events] s t

/-- Rule R140: a cycle that fetches a word no row of rule R75 matches leaves pc at the fetch address + 2,
both timers ticked, the one diagnostic with the raw word, and every other field unchanged. -/
def Obligations.FallbackCycleAdvancesTicksAndWarns : Prop :=
  ∀ s : State, Fetches s → (∀ r ∈ implementedRows, fetched s &&& r.mask ≠ r.pat) →
    ∃ t, step s = .next t ∧ t.pc.toNat = s.pc.toNat + 2 ∧
      t.delayTimer.toNat = s.delayTimer.toNat - 1 ∧ t.soundTimer.toNat = s.soundTimer.toNat - 1 ∧
      t.diag = some (.unknownOpcode (fetched s)) ∧
      UnchangedBut [.pc, .delayTimer, .soundTimer, .diag, .events] s t

/-- Rule R141: the words of the seven named groups execute rule R140 and nothing else. -/
def Obligations.NamedGroupsExecuteTheFallback : Prop :=
  ∀ (w : Word) (s : State),
    (w &&& 0xF000 = 0x8000 ∨ w &&& 0xF000 = 0xB000 ∨ w &&& 0xF0FF = 0xF00A ∨ w &&& 0xF0FF = 0xF029 ∨
      w &&& 0xF0FF = 0xF033 ∨ w &&& 0xF0FF = 0xF055 ∨ w &&& 0xF0FF = 0xF065) →
    ∃ t, exec (decodeWord w) s = .next t ∧ t.diag = some (.unknownOpcode w) ∧ UnchangedBut [.diag, .events] s t

/-- Rule R144 (a): executing zeroed memory never stops, for any number of cycles; it changes pc, the timers
and the diagnostics alone, one per cycle in the model's own event log (log entry 2). -/
def Obligations.ZeroedMemoryNeverStops : Prop :=
  ∀ (k : Nat) (s : State), s.memory = [] → s.halted = none →
    ∃ t : State, Host.Core.run Sys2Proof.core k s = .next t ∧
      UnchangedBut [.pc, .delayTimer, .soundTimer, .diag, .events] s t ∧ t.events.length = s.events.length + k

/-! ### The boundary and the host -/

/-- Rules R34, R62: `loadImage` places the bytes from 0x200 upward and changes nothing else, if they fit
(memory is a list in canonical form, which the invariant gives); else it is rejected, with no state. -/
def Obligations.LoadImagePlacesTheBytes : Prop :=
  ∀ (bytes : List Byte) (s : State), Memory.wf s.memory = true →
    (bytes.length ≤ 3584 → ∃ t, loadImage bytes s = .ok t ∧
      (∀ (k : Nat) (h : k < bytes.length), t.readByte (BitVec.ofNat 12 (0x200 + k)) = bytes[k]) ∧
      UnchangedBut ((List.range bytes.length).map fun k => .mem (BitVec.ofNat 12 (0x200 + k))) s t) ∧
    (3584 < bytes.length → loadImage bytes s = .error (.imageTooLarge bytes.length))

/-- Rules R63, R179: the host has one load, before the first cycle: after a load or a cycle there is no
such move, and no move leads back. -/
def Obligations.TheImageIsLoadedOnce : Prop :=
  ∀ (l l' : Life) (m : HostMove), l.move m = .moved l' →
    ((∃ bytes, m = .loadImage bytes) ∨ m = .cycle ∨ l.phase ≠ .constructed) →
    ∀ bytes, l'.move (.loadImage bytes) = .noSuchMove

/-- Rules R35, R179: outside a cycle the host changes the key snapshot, whole, or loads memory before the
first cycle; it has no move that writes V, I, pc, the stack, the display, the timers or `halted`. -/
def Obligations.HostMovesChangeKeysAndMemoryOnly : Prop :=
  (∀ (k : Keys) (s : State), (∀ j : Fin 16, (setKeys k s).keys[j] = k[j]) ∧ UnchangedBut [.keys] s (setKeys k s)) ∧
  (∀ (l l' : Life) (m : HostMove), m ≠ .cycle → l.move m = .moved l' →
    ∀ p : Part, p ≠ .keys → (∀ a, p ≠ .mem a) → p.same l.core l'.core) ∧
  (∀ (l l' : Life) (m : HostMove), m ≠ .cycle → l.move m = .moved l' → l.phase = .running →
    l'.core.memory = l.core.memory)

/-- Rules R111, R186: in the model's idle state (log entry 9) every cycle repeats the jump and changes
nothing but the diagnostic output, which is none; the state stays idle. -/
def Obligations.IdleMachineStaysIdle : Prop :=
  ∀ s : State, Idle s → ∃ t, step s = .next t ∧ Idle t ∧ t.diag = none ∧ UnchangedBut [.diag] s t
end

