-- ==== Sys2Proof/Laws/Decode.lean ====
section
/-! SUPPORT. Laws/Decode.lean: the fields of a built word are the fields it was built from, a word is built
from its own fields, and a field of a masked word is the masked field. -/

namespace Sys2Proof

/-! ### The value of a field and of a built word -/

theorem fieldTop_toNat (w : Word) : (fieldTop w).toNat = w.toNat / 0x1000 := by
  have := w.isLt
  simp only [fieldTop, BitVec.extractLsb'_toNat, Nat.shiftRight_eq_div_pow]
  omega

theorem fieldX_toNat (w : Word) : (fieldX w).toNat = w.toNat / 0x100 % 0x10 := by
  simp [fieldX, BitVec.extractLsb'_toNat, Nat.shiftRight_eq_div_pow]

theorem fieldY_toNat (w : Word) : (fieldY w).toNat = w.toNat / 0x10 % 0x10 := by
  simp [fieldY, BitVec.extractLsb'_toNat, Nat.shiftRight_eq_div_pow]

theorem fieldN_toNat (w : Word) : (fieldN w).toNat = w.toNat % 0x10 := by
  simp [fieldN, BitVec.extractLsb'_toNat]

theorem fieldNN_toNat (w : Word) : (fieldNN w).toNat = w.toNat % 0x100 := by
  simp [fieldNN, BitVec.extractLsb'_toNat]

theorem fieldNNN_toNat (w : Word) : (fieldNNN w).toNat = w.toNat % 0x1000 := by
  simp [fieldNNN, BitVec.extractLsb'_toNat]

theorem wordNNN_toNat (t : Nibble) (a : Addr) : (wordNNN t a).toNat = t.toNat * 0x1000 + a.toNat := by
  have := t.isLt; have := a.isLt
  simp only [wordNNN, BitVec.toNat_ofNat]
  omega

theorem wordXNN_toNat (t : Nibble) (x : RegIdx) (b : Byte) :
    (wordXNN t x b).toNat = t.toNat * 0x1000 + x.toNat * 0x100 + b.toNat := by
  have := t.isLt; have := x.isLt; have := b.isLt
  simp only [wordXNN, BitVec.toNat_ofNat]
  omega

theorem wordXYN_toNat (t : Nibble) (x y : RegIdx) (n : Nibble) :
    (wordXYN t x y n).toNat = t.toNat * 0x1000 + x.toNat * 0x100 + y.toNat * 0x10 + n.toNat := by
  have := t.isLt; have := x.isLt; have := y.isLt; have := n.isLt
  simp only [wordXYN, BitVec.toNat_ofNat]
  omega

theorem wordOfBytes_toNat (hi lo : Byte) : (wordOfBytes hi lo).toNat = hi.toNat * 0x100 + lo.toNat := by
  have := hi.isLt; have := lo.isLt
  simp only [wordOfBytes, BitVec.toNat_ofNat]
  omega

/-! ### The fields of a built word -/

@[simp] theorem fieldTop_wordNNN (t : Nibble) (a : Addr) : fieldTop (wordNNN t a) = t := by
  have := a.isLt
  apply BitVec.eq_of_toNat_eq; rw [fieldTop_toNat, wordNNN_toNat]; omega

@[simp] theorem fieldNNN_wordNNN (t : Nibble) (a : Addr) : fieldNNN (wordNNN t a) = a := by
  have := a.isLt
  apply BitVec.eq_of_toNat_eq; rw [fieldNNN_toNat, wordNNN_toNat]; omega

@[simp] theorem fieldTop_wordXNN (t : Nibble) (x : RegIdx) (b : Byte) : fieldTop (wordXNN t x b) = t := by
  have := x.isLt; have := b.isLt
  apply BitVec.eq_of_toNat_eq; rw [fieldTop_toNat, wordXNN_toNat]; omega

@[simp] theorem fieldX_wordXNN (t : Nibble) (x : RegIdx) (b : Byte) : fieldX (wordXNN t x b) = x := by
  have := x.isLt; have := b.isLt
  apply BitVec.eq_of_toNat_eq; rw [fieldX_toNat, wordXNN_toNat]; omega

@[simp] theorem fieldNN_wordXNN (t : Nibble) (x : RegIdx) (b : Byte) : fieldNN (wordXNN t x b) = b := by
  have := b.isLt
  apply BitVec.eq_of_toNat_eq; rw [fieldNN_toNat, wordXNN_toNat]; omega

@[simp] theorem fieldTop_wordXYN (t : Nibble) (x y : RegIdx) (n : Nibble) : fieldTop (wordXYN t x y n) = t := by
  have := x.isLt; have := y.isLt; have := n.isLt
  apply BitVec.eq_of_toNat_eq; rw [fieldTop_toNat, wordXYN_toNat]; omega

@[simp] theorem fieldX_wordXYN (t : Nibble) (x y : RegIdx) (n : Nibble) : fieldX (wordXYN t x y n) = x := by
  have := x.isLt; have := y.isLt; have := n.isLt
  apply BitVec.eq_of_toNat_eq; rw [fieldX_toNat, wordXYN_toNat]; omega

@[simp] theorem fieldY_wordXYN (t : Nibble) (x y : RegIdx) (n : Nibble) : fieldY (wordXYN t x y n) = y := by
  have := y.isLt; have := n.isLt
  apply BitVec.eq_of_toNat_eq; rw [fieldY_toNat, wordXYN_toNat]; omega

@[simp] theorem fieldN_wordXYN (t : Nibble) (x y : RegIdx) (n : Nibble) : fieldN (wordXYN t x y n) = n := by
  have := n.isLt
  apply BitVec.eq_of_toNat_eq; rw [fieldN_toNat, wordXYN_toNat]; omega

/-! ### A word is built from its own fields -/

theorem wordNNN_fields (w : Word) : wordNNN (fieldTop w) (fieldNNN w) = w := by
  apply BitVec.eq_of_toNat_eq
  rw [wordNNN_toNat, fieldTop_toNat, fieldNNN_toNat]; omega

theorem wordXNN_fields (w : Word) : wordXNN (fieldTop w) (fieldX w) (fieldNN w) = w := by
  apply BitVec.eq_of_toNat_eq
  rw [wordXNN_toNat, fieldTop_toNat, fieldX_toNat, fieldNN_toNat]; omega

theorem wordXYN_fields (w : Word) : wordXYN (fieldTop w) (fieldX w) (fieldY w) (fieldN w) = w := by
  apply BitVec.eq_of_toNat_eq
  rw [wordXYN_toNat, fieldTop_toNat, fieldX_toNat, fieldY_toNat, fieldN_toNat]; omega

/-- A word laid out as memory stores it is read back as that word (rule R70). -/
@[simp] theorem wordOfBytes_bytes (w : Word) : wordOfBytes (w.extractLsb' 8 8) (w.extractLsb' 0 8) = w := by
  have := w.isLt
  apply BitVec.eq_of_toNat_eq
  rw [wordOfBytes_toNat, BitVec.extractLsb'_toNat, BitVec.extractLsb'_toNat, Nat.shiftRight_eq_div_pow]
  simp
  omega

/-! ### The fields of a masked word -/

theorem fieldTop_and (w m : Word) : fieldTop (w &&& m) = fieldTop w &&& fieldTop m := by
  unfold fieldTop; ext i hi; simp

theorem fieldX_and (w m : Word) : fieldX (w &&& m) = fieldX w &&& fieldX m := by
  unfold fieldX; ext i hi; simp

theorem fieldY_and (w m : Word) : fieldY (w &&& m) = fieldY w &&& fieldY m := by
  unfold fieldY; ext i hi; simp

theorem fieldN_and (w m : Word) : fieldN (w &&& m) = fieldN w &&& fieldN m := by
  unfold fieldN; ext i hi; simp

theorem fieldNN_and (w m : Word) : fieldNN (w &&& m) = fieldNN w &&& fieldNN m := by
  unfold fieldNN; ext i hi; simp

/-- Two words with the same four digits are the same word. -/
theorem word_ext {v w : Word} (ht : fieldTop v = fieldTop w) (hx : fieldX v = fieldX w)
    (hy : fieldY v = fieldY w) (hn : fieldN v = fieldN w) : v = w := by
  rw [← wordXYN_fields v, ← wordXYN_fields w, ht, hx, hy, hn]

theorem nibble_and_F (t : Nibble) : t &&& 0xF = t := by revert t; decide

theorem nibble_and_0 (t : Nibble) : t &&& 0 = 0 := by revert t; decide

theorem byte_and_FF (b : Byte) : b &&& 0xFF = b := by revert b; decide

theorem wordXYN_zero (t : Nibble) : wordXYN t 0 0 0 = wordNNN t 0 := by revert t; decide

/-! A word under a mask that keeps a digit has that digit of the result (rule R75). -/

theorem fieldTop_of_mask {w m p : Word} (h : w &&& m = p) (hm : fieldTop m = 0xF) : fieldTop w = fieldTop p := by
  rw [← h, fieldTop_and, hm, nibble_and_F]

theorem fieldN_of_mask {w m p : Word} (h : w &&& m = p) (hm : fieldN m = 0xF) : fieldN w = fieldN p := by
  rw [← h, fieldN_and, hm, nibble_and_F]

theorem fieldNN_of_mask {w m p : Word} (h : w &&& m = p) (hm : fieldNN m = 0xFF) : fieldNN w = fieldNN p := by
  rw [← h, fieldNN_and, hm, byte_and_FF]

/-- Format NNN under the mask of its top digit (rule R75). -/
theorem wordNNN_mask (t : Nibble) (a : Addr) : wordNNN t a &&& 0xF000 = wordNNN t 0 := by
  rw [← wordXYN_fields (wordNNN t a &&& 0xF000)]
  simp only [fieldTop_and, fieldX_and, fieldY_and, fieldN_and, fieldTop_wordNNN]
  rw [show fieldTop 0xF000 = 0xF by decide, show fieldX 0xF000 = 0 by decide,
    show fieldY 0xF000 = 0 by decide, show fieldN 0xF000 = 0 by decide]
  simp only [nibble_and_F, nibble_and_0, wordXYN_zero]

/-- Format XNN under the mask of its top digit (rule R75). -/
theorem wordXNN_mask (t : Nibble) (x : RegIdx) (b : Byte) : wordXNN t x b &&& 0xF000 = wordNNN t 0 := by
  rw [← wordXYN_fields (wordXNN t x b &&& 0xF000)]
  simp only [fieldTop_and, fieldX_and, fieldY_and, fieldN_and, fieldTop_wordXNN]
  rw [show fieldTop 0xF000 = 0xF by decide, show fieldX 0xF000 = 0 by decide,
    show fieldY 0xF000 = 0 by decide, show fieldN 0xF000 = 0 by decide]
  simp only [nibble_and_F, nibble_and_0, wordXYN_zero]

/-- Format XKK under the mask of its top digit and low byte (rule R75). -/
theorem wordXKK_mask (t : Nibble) (x : RegIdx) (b : Byte) : wordXNN t x b &&& 0xF0FF = wordXNN t 0 b := by
  rw [← wordXNN_fields (wordXNN t x b &&& 0xF0FF)]
  simp only [fieldTop_and, fieldX_and, fieldNN_and, fieldTop_wordXNN, fieldX_wordXNN, fieldNN_wordXNN]
  rw [show fieldTop 0xF0FF = 0xF by decide, show fieldX 0xF0FF = 0 by decide,
    show fieldNN 0xF0FF = 0xFF by decide]
  simp only [nibble_and_F, byte_and_FF, nibble_and_0]

/-- Format XYN under the mask of its top digit (rule R75). -/
theorem wordXYN_mask (t : Nibble) (x y : RegIdx) (n : Nibble) : wordXYN t x y n &&& 0xF000 = wordNNN t 0 := by
  rw [← wordXYN_fields (wordXYN t x y n &&& 0xF000)]
  simp only [fieldTop_and, fieldX_and, fieldY_and, fieldN_and, fieldTop_wordXYN]
  rw [show fieldTop 0xF000 = 0xF by decide, show fieldX 0xF000 = 0 by decide,
    show fieldY 0xF000 = 0 by decide, show fieldN 0xF000 = 0 by decide]
  simp only [nibble_and_F, nibble_and_0, wordXYN_zero]

/-- Format XY0 under the mask of its two fixed digits (rule R75). -/
theorem wordXY0_mask (t : Nibble) (x y : RegIdx) (n : Nibble) :
    wordXYN t x y n &&& 0xF00F = wordXYN t 0 0 n := by
  rw [← wordXYN_fields (wordXYN t x y n &&& 0xF00F)]
  simp only [fieldTop_and, fieldX_and, fieldY_and, fieldN_and, fieldTop_wordXYN, fieldX_wordXYN,
    fieldY_wordXYN, fieldN_wordXYN]
  rw [show fieldTop 0xF00F = 0xF by decide, show fieldX 0xF00F = 0 by decide,
    show fieldY 0xF00F = 0 by decide, show fieldN 0xF00F = 0xF by decide]
  simp only [nibble_and_F, nibble_and_0]


/-! ### The decoder, one equation per first digit and per fixed low byte (rule R74) -/

/-- A word with a first digit other than 0 is neither of the two full-value words. -/
theorem ne_fullValue {w : Word} (h : fieldTop w ≠ 0) : w ≠ 0x00E0#16 ∧ w ≠ 0x00EE#16 := by
  constructor <;> (rintro rfl; exact h (by decide))

theorem decodeWord_top0 {w : Word} (h : fieldTop w = 0x0) (h0 : w ≠ 0x00E0#16) (hE : w ≠ 0x00EE#16) :
    decodeWord w = .unimplAny w := by
  unfold decodeWord; rw [if_neg h0, if_neg hE, h]; rfl

theorem decodeWord_top1 {w : Word} (h : fieldTop w = 0x1) :
    decodeWord w = .jp (fieldNNN w) := by
  have hf := ne_fullValue (w := w) (by rw [h]; decide)
  unfold decodeWord; rw [if_neg hf.1, if_neg hf.2, h]; rfl

theorem decodeWord_top2 {w : Word} (h : fieldTop w = 0x2) :
    decodeWord w = .call (fieldNNN w) := by
  have hf := ne_fullValue (w := w) (by rw [h]; decide)
  unfold decodeWord; rw [if_neg hf.1, if_neg hf.2, h]; rfl

theorem decodeWord_top3 {w : Word} (h : fieldTop w = 0x3) :
    decodeWord w = .seImm (fieldX w) (fieldNN w) := by
  have hf := ne_fullValue (w := w) (by rw [h]; decide)
  unfold decodeWord; rw [if_neg hf.1, if_neg hf.2, h]; rfl

theorem decodeWord_top4 {w : Word} (h : fieldTop w = 0x4) :
    decodeWord w = .sneImm (fieldX w) (fieldNN w) := by
  have hf := ne_fullValue (w := w) (by rw [h]; decide)
  unfold decodeWord; rw [if_neg hf.1, if_neg hf.2, h]; rfl

theorem decodeWord_top5 {w : Word} (h : fieldTop w = 0x5) :
    decodeWord w = if fieldN w = 0 then .seReg (fieldX w) (fieldY w) else .unimplAny w := by
  have hf := ne_fullValue (w := w) (by rw [h]; decide)
  unfold decodeWord; rw [if_neg hf.1, if_neg hf.2, h]; rfl

theorem decodeWord_top6 {w : Word} (h : fieldTop w = 0x6) :
    decodeWord w = .ldImm (fieldX w) (fieldNN w) := by
  have hf := ne_fullValue (w := w) (by rw [h]; decide)
  unfold decodeWord; rw [if_neg hf.1, if_neg hf.2, h]; rfl

theorem decodeWord_top7 {w : Word} (h : fieldTop w = 0x7) :
    decodeWord w = .addImm (fieldX w) (fieldNN w) := by
  have hf := ne_fullValue (w := w) (by rw [h]; decide)
  unfold decodeWord; rw [if_neg hf.1, if_neg hf.2, h]; rfl

theorem decodeWord_top8 {w : Word} (h : fieldTop w = 0x8) :
    decodeWord w = .unimpl8xy (fieldX w) (fieldY w) (fieldN w) := by
  have hf := ne_fullValue (w := w) (by rw [h]; decide)
  unfold decodeWord; rw [if_neg hf.1, if_neg hf.2, h]; rfl

theorem decodeWord_top9 {w : Word} (h : fieldTop w = 0x9) :
    decodeWord w = if fieldN w = 0 then .sneReg (fieldX w) (fieldY w) else .unimplAny w := by
  have hf := ne_fullValue (w := w) (by rw [h]; decide)
  unfold decodeWord; rw [if_neg hf.1, if_neg hf.2, h]; rfl

theorem decodeWord_topA {w : Word} (h : fieldTop w = 0xA) :
    decodeWord w = .ldI (fieldNNN w) := by
  have hf := ne_fullValue (w := w) (by rw [h]; decide)
  unfold decodeWord; rw [if_neg hf.1, if_neg hf.2, h]; rfl

theorem decodeWord_topB {w : Word} (h : fieldTop w = 0xB) :
    decodeWord w = .unimplBnnn (fieldNNN w) := by
  have hf := ne_fullValue (w := w) (by rw [h]; decide)
  unfold decodeWord; rw [if_neg hf.1, if_neg hf.2, h]; rfl

theorem decodeWord_topC {w : Word} (h : fieldTop w = 0xC) :
    decodeWord w = .rnd (fieldX w) (fieldNN w) := by
  have hf := ne_fullValue (w := w) (by rw [h]; decide)
  unfold decodeWord; rw [if_neg hf.1, if_neg hf.2, h]; rfl

theorem decodeWord_topD {w : Word} (h : fieldTop w = 0xD) :
    decodeWord w = .drw (fieldX w) (fieldY w) (fieldN w) := by
  have hf := ne_fullValue (w := w) (by rw [h]; decide)
  unfold decodeWord; rw [if_neg hf.1, if_neg hf.2, h]; rfl

theorem decodeWord_topE {w : Word} (h : fieldTop w = 0xE) :
    decodeWord w = decodeE w := by
  have hf := ne_fullValue (w := w) (by rw [h]; decide)
  unfold decodeWord; rw [if_neg hf.1, if_neg hf.2, h]; rfl

theorem decodeWord_topF {w : Word} (h : fieldTop w = 0xF) :
    decodeWord w = decodeF w := by
  have hf := ne_fullValue (w := w) (by rw [h]; decide)
  unfold decodeWord; rw [if_neg hf.1, if_neg hf.2, h]; rfl

theorem decodeE_9E {w : Word} (h : fieldNN w = 0x9E) : decodeE w = .skp (fieldX w) := by
  unfold decodeE; rw [h]; rfl

theorem decodeE_A1 {w : Word} (h : fieldNN w = 0xA1) : decodeE w = .sknp (fieldX w) := by
  unfold decodeE; rw [h]; rfl

theorem decodeF_07 {w : Word} (h : fieldNN w = 0x07) : decodeF w = .ldVxDT (fieldX w) := by
  unfold decodeF; rw [h]; rfl

theorem decodeF_15 {w : Word} (h : fieldNN w = 0x15) : decodeF w = .ldDTVx (fieldX w) := by
  unfold decodeF; rw [h]; rfl

theorem decodeF_18 {w : Word} (h : fieldNN w = 0x18) : decodeF w = .ldSTVx (fieldX w) := by
  unfold decodeF; rw [h]; rfl

theorem decodeF_1E {w : Word} (h : fieldNN w = 0x1E) : decodeF w = .addI (fieldX w) := by
  unfold decodeF; rw [h]; rfl

theorem decodeF_0A {w : Word} (h : fieldNN w = 0x0A) : decodeF w = .unimplFx0A (fieldX w) := by
  unfold decodeF; rw [h]; rfl

theorem decodeF_29 {w : Word} (h : fieldNN w = 0x29) : decodeF w = .unimplFx29 (fieldX w) := by
  unfold decodeF; rw [h]; rfl

theorem decodeF_33 {w : Word} (h : fieldNN w = 0x33) : decodeF w = .unimplFx33 (fieldX w) := by
  unfold decodeF; rw [h]; rfl

theorem decodeF_55 {w : Word} (h : fieldNN w = 0x55) : decodeF w = .unimplFx55 (fieldX w) := by
  unfold decodeF; rw [h]; rfl

theorem decodeF_65 {w : Word} (h : fieldNN w = 0x65) : decodeF w = .unimplFx65 (fieldX w) := by
  unfold decodeF; rw [h]; rfl

theorem decodeE_other {w : Word} (h1 : fieldNN w ≠ 0x9E) (h2 : fieldNN w ≠ 0xA1) : decodeE w = .unimplAny w := by
  unfold decodeE
  split
  · next h => exact absurd (BitVec.eq_of_toNat_eq h) h1
  · next h => exact absurd (BitVec.eq_of_toNat_eq h) h2
  · rfl

/-- Group F decodes to an implemented instruction only at the four low bytes of rule R74 (3). -/
theorem decodeF_not_implemented {w : Word} (h1 : fieldNN w ≠ 0x07) (h2 : fieldNN w ≠ 0x15)
    (h3 : fieldNN w ≠ 0x18) (h4 : fieldNN w ≠ 0x1E) : (decodeF w).implemented = false := by
  unfold decodeF
  split
  · next h => exact absurd (BitVec.eq_of_toNat_eq h) h1
  · next h => exact absurd (BitVec.eq_of_toNat_eq h) h2
  · next h => exact absurd (BitVec.eq_of_toNat_eq h) h3
  · next h => exact absurd (BitVec.eq_of_toNat_eq h) h4
  all_goals rfl

/-- The low digit under its mask (rule R76). -/
theorem fieldN_ne_of_mask {w : Word} (h : w &&& 0x000F ≠ 0) : fieldN w ≠ 0 := fun hn => h (by
  rw [← wordXYN_fields (w &&& 0x000F)]
  simp only [fieldTop_and, fieldX_and, fieldY_and, fieldN_and, hn]
  rw [show fieldTop 0x000F = 0 by decide, show fieldX 0x000F = 0 by decide, show fieldY 0x000F = 0 by decide]
  simp only [nibble_and_0]
  decide)

/-- The low byte under its mask (rule R76). -/
theorem lowByte_of_fieldNN {w : Word} {b : Byte} (h : fieldNN w = b) : w &&& 0x00FF = b.setWidth 16 := by
  subst h
  apply BitVec.eq_of_toNat_eq
  rw [BitVec.toNat_and, BitVec.toNat_setWidth, fieldNN_toNat]
  have : w.toNat &&& 255 = w.toNat % 256 := Nat.and_two_pow_sub_one_eq_mod w.toNat 8
  rw [show (0x00FF : Word).toNat = 255 from rfl, this]
  omega

end Sys2Proof
end

