-- ==== Sys2Proof/Laws/State.lean ====
section
/-! SUPPORT. Laws/State.lean: what each update of the state leaves in each field, one lemma per field per
update, so that no proof unfolds a record update. Generated by a script from the list of updates. -/

namespace Sys2Proof.Machine

/-! ### `State.setMemory` -/

@[simp] theorem State.setMemory_memory (s : State) (m : Memory) : (s.setMemory m).memory = m := rfl
@[simp] theorem State.setMemory_V (s : State) (m : Memory) : (s.setMemory m).V = s.V := rfl
@[simp] theorem State.setMemory_I (s : State) (m : Memory) : (s.setMemory m).I = s.I := rfl
@[simp] theorem State.setMemory_pc (s : State) (m : Memory) : (s.setMemory m).pc = s.pc := rfl
@[simp] theorem State.setMemory_stack (s : State) (m : Memory) : (s.setMemory m).stack = s.stack := rfl
@[simp] theorem State.setMemory_display (s : State) (m : Memory) : (s.setMemory m).display = s.display := rfl
@[simp] theorem State.setMemory_keys (s : State) (m : Memory) : (s.setMemory m).keys = s.keys := rfl
@[simp] theorem State.setMemory_delayTimer (s : State) (m : Memory) : (s.setMemory m).delayTimer = s.delayTimer := rfl
@[simp] theorem State.setMemory_soundTimer (s : State) (m : Memory) : (s.setMemory m).soundTimer = s.soundTimer := rfl
@[simp] theorem State.setMemory_halted (s : State) (m : Memory) : (s.setMemory m).halted = s.halted := rfl
@[simp] theorem State.setMemory_diag (s : State) (m : Memory) : (s.setMemory m).diag = s.diag := rfl
@[simp] theorem State.setMemory_events (s : State) (m : Memory) : (s.setMemory m).events = s.events := rfl
@[simp] theorem State.setMemory_draws (s : State) (m : Memory) : (s.setMemory m).draws = s.draws := rfl
@[simp] theorem State.getV_setMemory (s : State) (m : Memory) (r : RegIdx) : (s.setMemory m).getV r = s.getV r := rfl

/-! ### `State.setV` -/

@[simp] theorem State.setV_memory (s : State) (x : RegIdx) (v : Byte) : (s.setV x v).memory = s.memory := rfl
@[simp] theorem State.setV_V (s : State) (x : RegIdx) (v : Byte) : (s.setV x v).V = s.V.set x.toNat v x.isLt := rfl
@[simp] theorem State.setV_I (s : State) (x : RegIdx) (v : Byte) : (s.setV x v).I = s.I := rfl
@[simp] theorem State.setV_pc (s : State) (x : RegIdx) (v : Byte) : (s.setV x v).pc = s.pc := rfl
@[simp] theorem State.setV_stack (s : State) (x : RegIdx) (v : Byte) : (s.setV x v).stack = s.stack := rfl
@[simp] theorem State.setV_display (s : State) (x : RegIdx) (v : Byte) : (s.setV x v).display = s.display := rfl
@[simp] theorem State.setV_keys (s : State) (x : RegIdx) (v : Byte) : (s.setV x v).keys = s.keys := rfl
@[simp] theorem State.setV_delayTimer (s : State) (x : RegIdx) (v : Byte) : (s.setV x v).delayTimer = s.delayTimer := rfl
@[simp] theorem State.setV_soundTimer (s : State) (x : RegIdx) (v : Byte) : (s.setV x v).soundTimer = s.soundTimer := rfl
@[simp] theorem State.setV_halted (s : State) (x : RegIdx) (v : Byte) : (s.setV x v).halted = s.halted := rfl
@[simp] theorem State.setV_diag (s : State) (x : RegIdx) (v : Byte) : (s.setV x v).diag = s.diag := rfl
@[simp] theorem State.setV_events (s : State) (x : RegIdx) (v : Byte) : (s.setV x v).events = s.events := rfl
@[simp] theorem State.setV_draws (s : State) (x : RegIdx) (v : Byte) : (s.setV x v).draws = s.draws := rfl
@[simp] theorem State.readByte_setV (s : State) (x : RegIdx) (v : Byte) (b : Addr) : (s.setV x v).readByte b = s.readByte b := rfl

/-! ### `State.setI` -/

@[simp] theorem State.setI_memory (s : State) (a : Addr) : (s.setI a).memory = s.memory := rfl
@[simp] theorem State.setI_V (s : State) (a : Addr) : (s.setI a).V = s.V := rfl
@[simp] theorem State.setI_I (s : State) (a : Addr) : (s.setI a).I = a := rfl
@[simp] theorem State.setI_pc (s : State) (a : Addr) : (s.setI a).pc = s.pc := rfl
@[simp] theorem State.setI_stack (s : State) (a : Addr) : (s.setI a).stack = s.stack := rfl
@[simp] theorem State.setI_display (s : State) (a : Addr) : (s.setI a).display = s.display := rfl
@[simp] theorem State.setI_keys (s : State) (a : Addr) : (s.setI a).keys = s.keys := rfl
@[simp] theorem State.setI_delayTimer (s : State) (a : Addr) : (s.setI a).delayTimer = s.delayTimer := rfl
@[simp] theorem State.setI_soundTimer (s : State) (a : Addr) : (s.setI a).soundTimer = s.soundTimer := rfl
@[simp] theorem State.setI_halted (s : State) (a : Addr) : (s.setI a).halted = s.halted := rfl
@[simp] theorem State.setI_diag (s : State) (a : Addr) : (s.setI a).diag = s.diag := rfl
@[simp] theorem State.setI_events (s : State) (a : Addr) : (s.setI a).events = s.events := rfl
@[simp] theorem State.setI_draws (s : State) (a : Addr) : (s.setI a).draws = s.draws := rfl
@[simp] theorem State.getV_setI (s : State) (a : Addr) (r : RegIdx) : (s.setI a).getV r = s.getV r := rfl
@[simp] theorem State.readByte_setI (s : State) (a : Addr) (b : Addr) : (s.setI a).readByte b = s.readByte b := rfl

/-! ### `State.setPc` -/

@[simp] theorem State.setPc_memory (s : State) (a : Addr) : (s.setPc a).memory = s.memory := rfl
@[simp] theorem State.setPc_V (s : State) (a : Addr) : (s.setPc a).V = s.V := rfl
@[simp] theorem State.setPc_I (s : State) (a : Addr) : (s.setPc a).I = s.I := rfl
@[simp] theorem State.setPc_pc (s : State) (a : Addr) : (s.setPc a).pc = a := rfl
@[simp] theorem State.setPc_stack (s : State) (a : Addr) : (s.setPc a).stack = s.stack := rfl
@[simp] theorem State.setPc_display (s : State) (a : Addr) : (s.setPc a).display = s.display := rfl
@[simp] theorem State.setPc_keys (s : State) (a : Addr) : (s.setPc a).keys = s.keys := rfl
@[simp] theorem State.setPc_delayTimer (s : State) (a : Addr) : (s.setPc a).delayTimer = s.delayTimer := rfl
@[simp] theorem State.setPc_soundTimer (s : State) (a : Addr) : (s.setPc a).soundTimer = s.soundTimer := rfl
@[simp] theorem State.setPc_halted (s : State) (a : Addr) : (s.setPc a).halted = s.halted := rfl
@[simp] theorem State.setPc_diag (s : State) (a : Addr) : (s.setPc a).diag = s.diag := rfl
@[simp] theorem State.setPc_events (s : State) (a : Addr) : (s.setPc a).events = s.events := rfl
@[simp] theorem State.setPc_draws (s : State) (a : Addr) : (s.setPc a).draws = s.draws := rfl
@[simp] theorem State.getV_setPc (s : State) (a : Addr) (r : RegIdx) : (s.setPc a).getV r = s.getV r := rfl
@[simp] theorem State.readByte_setPc (s : State) (a : Addr) (b : Addr) : (s.setPc a).readByte b = s.readByte b := rfl

/-! ### `State.setDelayTimer` -/

@[simp] theorem State.setDelayTimer_memory (s : State) (v : Byte) : (s.setDelayTimer v).memory = s.memory := rfl
@[simp] theorem State.setDelayTimer_V (s : State) (v : Byte) : (s.setDelayTimer v).V = s.V := rfl
@[simp] theorem State.setDelayTimer_I (s : State) (v : Byte) : (s.setDelayTimer v).I = s.I := rfl
@[simp] theorem State.setDelayTimer_pc (s : State) (v : Byte) : (s.setDelayTimer v).pc = s.pc := rfl
@[simp] theorem State.setDelayTimer_stack (s : State) (v : Byte) : (s.setDelayTimer v).stack = s.stack := rfl
@[simp] theorem State.setDelayTimer_display (s : State) (v : Byte) : (s.setDelayTimer v).display = s.display := rfl
@[simp] theorem State.setDelayTimer_keys (s : State) (v : Byte) : (s.setDelayTimer v).keys = s.keys := rfl
@[simp] theorem State.setDelayTimer_delayTimer (s : State) (v : Byte) : (s.setDelayTimer v).delayTimer = v := rfl
@[simp] theorem State.setDelayTimer_soundTimer (s : State) (v : Byte) : (s.setDelayTimer v).soundTimer = s.soundTimer := rfl
@[simp] theorem State.setDelayTimer_halted (s : State) (v : Byte) : (s.setDelayTimer v).halted = s.halted := rfl
@[simp] theorem State.setDelayTimer_diag (s : State) (v : Byte) : (s.setDelayTimer v).diag = s.diag := rfl
@[simp] theorem State.setDelayTimer_events (s : State) (v : Byte) : (s.setDelayTimer v).events = s.events := rfl
@[simp] theorem State.setDelayTimer_draws (s : State) (v : Byte) : (s.setDelayTimer v).draws = s.draws := rfl
@[simp] theorem State.getV_setDelayTimer (s : State) (v : Byte) (r : RegIdx) : (s.setDelayTimer v).getV r = s.getV r := rfl
@[simp] theorem State.readByte_setDelayTimer (s : State) (v : Byte) (b : Addr) : (s.setDelayTimer v).readByte b = s.readByte b := rfl

/-! ### `State.setSoundTimer` -/

@[simp] theorem State.setSoundTimer_memory (s : State) (v : Byte) : (s.setSoundTimer v).memory = s.memory := rfl
@[simp] theorem State.setSoundTimer_V (s : State) (v : Byte) : (s.setSoundTimer v).V = s.V := rfl
@[simp] theorem State.setSoundTimer_I (s : State) (v : Byte) : (s.setSoundTimer v).I = s.I := rfl
@[simp] theorem State.setSoundTimer_pc (s : State) (v : Byte) : (s.setSoundTimer v).pc = s.pc := rfl
@[simp] theorem State.setSoundTimer_stack (s : State) (v : Byte) : (s.setSoundTimer v).stack = s.stack := rfl
@[simp] theorem State.setSoundTimer_display (s : State) (v : Byte) : (s.setSoundTimer v).display = s.display := rfl
@[simp] theorem State.setSoundTimer_keys (s : State) (v : Byte) : (s.setSoundTimer v).keys = s.keys := rfl
@[simp] theorem State.setSoundTimer_delayTimer (s : State) (v : Byte) : (s.setSoundTimer v).delayTimer = s.delayTimer := rfl
@[simp] theorem State.setSoundTimer_soundTimer (s : State) (v : Byte) : (s.setSoundTimer v).soundTimer = v := rfl
@[simp] theorem State.setSoundTimer_halted (s : State) (v : Byte) : (s.setSoundTimer v).halted = s.halted := rfl
@[simp] theorem State.setSoundTimer_diag (s : State) (v : Byte) : (s.setSoundTimer v).diag = s.diag := rfl
@[simp] theorem State.setSoundTimer_events (s : State) (v : Byte) : (s.setSoundTimer v).events = s.events := rfl
@[simp] theorem State.setSoundTimer_draws (s : State) (v : Byte) : (s.setSoundTimer v).draws = s.draws := rfl
@[simp] theorem State.getV_setSoundTimer (s : State) (v : Byte) (r : RegIdx) : (s.setSoundTimer v).getV r = s.getV r := rfl
@[simp] theorem State.readByte_setSoundTimer (s : State) (v : Byte) (b : Addr) : (s.setSoundTimer v).readByte b = s.readByte b := rfl

/-! ### `State.setKeys` -/

@[simp] theorem State.setKeys_memory (s : State) (k : Keys) : (s.setKeys k).memory = s.memory := rfl
@[simp] theorem State.setKeys_V (s : State) (k : Keys) : (s.setKeys k).V = s.V := rfl
@[simp] theorem State.setKeys_I (s : State) (k : Keys) : (s.setKeys k).I = s.I := rfl
@[simp] theorem State.setKeys_pc (s : State) (k : Keys) : (s.setKeys k).pc = s.pc := rfl
@[simp] theorem State.setKeys_stack (s : State) (k : Keys) : (s.setKeys k).stack = s.stack := rfl
@[simp] theorem State.setKeys_display (s : State) (k : Keys) : (s.setKeys k).display = s.display := rfl
@[simp] theorem State.setKeys_keys (s : State) (k : Keys) : (s.setKeys k).keys = k := rfl
@[simp] theorem State.setKeys_delayTimer (s : State) (k : Keys) : (s.setKeys k).delayTimer = s.delayTimer := rfl
@[simp] theorem State.setKeys_soundTimer (s : State) (k : Keys) : (s.setKeys k).soundTimer = s.soundTimer := rfl
@[simp] theorem State.setKeys_halted (s : State) (k : Keys) : (s.setKeys k).halted = s.halted := rfl
@[simp] theorem State.setKeys_diag (s : State) (k : Keys) : (s.setKeys k).diag = s.diag := rfl
@[simp] theorem State.setKeys_events (s : State) (k : Keys) : (s.setKeys k).events = s.events := rfl
@[simp] theorem State.setKeys_draws (s : State) (k : Keys) : (s.setKeys k).draws = s.draws := rfl
@[simp] theorem State.getV_setKeys (s : State) (k : Keys) (r : RegIdx) : (s.setKeys k).getV r = s.getV r := rfl
@[simp] theorem State.readByte_setKeys (s : State) (k : Keys) (b : Addr) : (s.setKeys k).readByte b = s.readByte b := rfl

/-! ### `State.nextDraw` -/

@[simp] theorem State.nextDraw_memory (s : State) : s.nextDraw.memory = s.memory := rfl
@[simp] theorem State.nextDraw_V (s : State) : s.nextDraw.V = s.V := rfl
@[simp] theorem State.nextDraw_I (s : State) : s.nextDraw.I = s.I := rfl
@[simp] theorem State.nextDraw_pc (s : State) : s.nextDraw.pc = s.pc := rfl
@[simp] theorem State.nextDraw_stack (s : State) : s.nextDraw.stack = s.stack := rfl
@[simp] theorem State.nextDraw_display (s : State) : s.nextDraw.display = s.display := rfl
@[simp] theorem State.nextDraw_keys (s : State) : s.nextDraw.keys = s.keys := rfl
@[simp] theorem State.nextDraw_delayTimer (s : State) : s.nextDraw.delayTimer = s.delayTimer := rfl
@[simp] theorem State.nextDraw_soundTimer (s : State) : s.nextDraw.soundTimer = s.soundTimer := rfl
@[simp] theorem State.nextDraw_halted (s : State) : s.nextDraw.halted = s.halted := rfl
@[simp] theorem State.nextDraw_diag (s : State) : s.nextDraw.diag = s.diag := rfl
@[simp] theorem State.nextDraw_events (s : State) : s.nextDraw.events = s.events := rfl
@[simp] theorem State.nextDraw_draws (s : State) : s.nextDraw.draws = s.draws + 1 := rfl
@[simp] theorem State.getV_nextDraw (s : State) (r : RegIdx) : s.nextDraw.getV r = s.getV r := rfl
@[simp] theorem State.readByte_nextDraw (s : State) (b : Addr) : s.nextDraw.readByte b = s.readByte b := rfl

/-! ### `State.setStack` -/

@[simp] theorem State.setStack_memory (s : State) (l : List Addr) : (s.setStack l).memory = s.memory := rfl
@[simp] theorem State.setStack_V (s : State) (l : List Addr) : (s.setStack l).V = s.V := rfl
@[simp] theorem State.setStack_I (s : State) (l : List Addr) : (s.setStack l).I = s.I := rfl
@[simp] theorem State.setStack_pc (s : State) (l : List Addr) : (s.setStack l).pc = s.pc := rfl
@[simp] theorem State.setStack_stack (s : State) (l : List Addr) : (s.setStack l).stack = l := rfl
@[simp] theorem State.setStack_display (s : State) (l : List Addr) : (s.setStack l).display = s.display := rfl
@[simp] theorem State.setStack_keys (s : State) (l : List Addr) : (s.setStack l).keys = s.keys := rfl
@[simp] theorem State.setStack_delayTimer (s : State) (l : List Addr) : (s.setStack l).delayTimer = s.delayTimer := rfl
@[simp] theorem State.setStack_soundTimer (s : State) (l : List Addr) : (s.setStack l).soundTimer = s.soundTimer := rfl
@[simp] theorem State.setStack_halted (s : State) (l : List Addr) : (s.setStack l).halted = s.halted := rfl
@[simp] theorem State.setStack_diag (s : State) (l : List Addr) : (s.setStack l).diag = s.diag := rfl
@[simp] theorem State.setStack_events (s : State) (l : List Addr) : (s.setStack l).events = s.events := rfl
@[simp] theorem State.setStack_draws (s : State) (l : List Addr) : (s.setStack l).draws = s.draws := rfl
@[simp] theorem State.getV_setStack (s : State) (l : List Addr) (r : RegIdx) : (s.setStack l).getV r = s.getV r := rfl
@[simp] theorem State.readByte_setStack (s : State) (l : List Addr) (b : Addr) : (s.setStack l).readByte b = s.readByte b := rfl

/-! ### `State.push` -/

@[simp] theorem State.push_memory (s : State) (a : Addr) : (s.push a).memory = s.memory := rfl
@[simp] theorem State.push_V (s : State) (a : Addr) : (s.push a).V = s.V := rfl
@[simp] theorem State.push_I (s : State) (a : Addr) : (s.push a).I = s.I := rfl
@[simp] theorem State.push_pc (s : State) (a : Addr) : (s.push a).pc = s.pc := rfl
@[simp] theorem State.push_stack (s : State) (a : Addr) : (s.push a).stack = a :: s.stack := rfl
@[simp] theorem State.push_display (s : State) (a : Addr) : (s.push a).display = s.display := rfl
@[simp] theorem State.push_keys (s : State) (a : Addr) : (s.push a).keys = s.keys := rfl
@[simp] theorem State.push_delayTimer (s : State) (a : Addr) : (s.push a).delayTimer = s.delayTimer := rfl
@[simp] theorem State.push_soundTimer (s : State) (a : Addr) : (s.push a).soundTimer = s.soundTimer := rfl
@[simp] theorem State.push_halted (s : State) (a : Addr) : (s.push a).halted = s.halted := rfl
@[simp] theorem State.push_diag (s : State) (a : Addr) : (s.push a).diag = s.diag := rfl
@[simp] theorem State.push_events (s : State) (a : Addr) : (s.push a).events = s.events := rfl
@[simp] theorem State.push_draws (s : State) (a : Addr) : (s.push a).draws = s.draws := rfl
@[simp] theorem State.getV_push (s : State) (a : Addr) (r : RegIdx) : (s.push a).getV r = s.getV r := rfl
@[simp] theorem State.readByte_push (s : State) (a : Addr) (b : Addr) : (s.push a).readByte b = s.readByte b := rfl

/-! ### `State.setDisplay` -/

@[simp] theorem State.setDisplay_memory (s : State) (d : Display) : (s.setDisplay d).memory = s.memory := rfl
@[simp] theorem State.setDisplay_V (s : State) (d : Display) : (s.setDisplay d).V = s.V := rfl
@[simp] theorem State.setDisplay_I (s : State) (d : Display) : (s.setDisplay d).I = s.I := rfl
@[simp] theorem State.setDisplay_pc (s : State) (d : Display) : (s.setDisplay d).pc = s.pc := rfl
@[simp] theorem State.setDisplay_stack (s : State) (d : Display) : (s.setDisplay d).stack = s.stack := rfl
@[simp] theorem State.setDisplay_display (s : State) (d : Display) : (s.setDisplay d).display = d := rfl
@[simp] theorem State.setDisplay_keys (s : State) (d : Display) : (s.setDisplay d).keys = s.keys := rfl
@[simp] theorem State.setDisplay_delayTimer (s : State) (d : Display) : (s.setDisplay d).delayTimer = s.delayTimer := rfl
@[simp] theorem State.setDisplay_soundTimer (s : State) (d : Display) : (s.setDisplay d).soundTimer = s.soundTimer := rfl
@[simp] theorem State.setDisplay_halted (s : State) (d : Display) : (s.setDisplay d).halted = s.halted := rfl
@[simp] theorem State.setDisplay_diag (s : State) (d : Display) : (s.setDisplay d).diag = s.diag := rfl
@[simp] theorem State.setDisplay_events (s : State) (d : Display) : (s.setDisplay d).events = s.events := rfl
@[simp] theorem State.setDisplay_draws (s : State) (d : Display) : (s.setDisplay d).draws = s.draws := rfl
@[simp] theorem State.getV_setDisplay (s : State) (d : Display) (r : RegIdx) : (s.setDisplay d).getV r = s.getV r := rfl
@[simp] theorem State.readByte_setDisplay (s : State) (d : Display) (b : Addr) : (s.setDisplay d).readByte b = s.readByte b := rfl

/-! ### `State.emit` -/

@[simp] theorem State.emit_memory (s : State) (d : Diag) : (s.emit d).memory = s.memory := rfl
@[simp] theorem State.emit_V (s : State) (d : Diag) : (s.emit d).V = s.V := rfl
@[simp] theorem State.emit_I (s : State) (d : Diag) : (s.emit d).I = s.I := rfl
@[simp] theorem State.emit_pc (s : State) (d : Diag) : (s.emit d).pc = s.pc := rfl
@[simp] theorem State.emit_stack (s : State) (d : Diag) : (s.emit d).stack = s.stack := rfl
@[simp] theorem State.emit_display (s : State) (d : Diag) : (s.emit d).display = s.display := rfl
@[simp] theorem State.emit_keys (s : State) (d : Diag) : (s.emit d).keys = s.keys := rfl
@[simp] theorem State.emit_delayTimer (s : State) (d : Diag) : (s.emit d).delayTimer = s.delayTimer := rfl
@[simp] theorem State.emit_soundTimer (s : State) (d : Diag) : (s.emit d).soundTimer = s.soundTimer := rfl
@[simp] theorem State.emit_halted (s : State) (d : Diag) : (s.emit d).halted = s.halted := rfl
@[simp] theorem State.emit_diag (s : State) (d : Diag) : (s.emit d).diag = some d := rfl
@[simp] theorem State.emit_events (s : State) (d : Diag) : (s.emit d).events = s.events ++ [d] := rfl
@[simp] theorem State.emit_draws (s : State) (d : Diag) : (s.emit d).draws = s.draws := rfl
@[simp] theorem State.getV_emit (s : State) (d : Diag) (r : RegIdx) : (s.emit d).getV r = s.getV r := rfl
@[simp] theorem State.readByte_emit (s : State) (d : Diag) (b : Addr) : (s.emit d).readByte b = s.readByte b := rfl

/-! ### `State.clearDiag` -/

@[simp] theorem State.clearDiag_memory (s : State) : s.clearDiag.memory = s.memory := rfl
@[simp] theorem State.clearDiag_V (s : State) : s.clearDiag.V = s.V := rfl
@[simp] theorem State.clearDiag_I (s : State) : s.clearDiag.I = s.I := rfl
@[simp] theorem State.clearDiag_pc (s : State) : s.clearDiag.pc = s.pc := rfl
@[simp] theorem State.clearDiag_stack (s : State) : s.clearDiag.stack = s.stack := rfl
@[simp] theorem State.clearDiag_display (s : State) : s.clearDiag.display = s.display := rfl
@[simp] theorem State.clearDiag_keys (s : State) : s.clearDiag.keys = s.keys := rfl
@[simp] theorem State.clearDiag_delayTimer (s : State) : s.clearDiag.delayTimer = s.delayTimer := rfl
@[simp] theorem State.clearDiag_soundTimer (s : State) : s.clearDiag.soundTimer = s.soundTimer := rfl
@[simp] theorem State.clearDiag_halted (s : State) : s.clearDiag.halted = s.halted := rfl
@[simp] theorem State.clearDiag_diag (s : State) : s.clearDiag.diag = none := rfl
@[simp] theorem State.clearDiag_events (s : State) : s.clearDiag.events = s.events := rfl
@[simp] theorem State.clearDiag_draws (s : State) : s.clearDiag.draws = s.draws := rfl
@[simp] theorem State.getV_clearDiag (s : State) (r : RegIdx) : s.clearDiag.getV r = s.getV r := rfl
@[simp] theorem State.readByte_clearDiag (s : State) (b : Addr) : s.clearDiag.readByte b = s.readByte b := rfl

/-! ### `State.latch` -/

@[simp] theorem State.latch_memory (s : State) (c : FatalCause) : (s.latch c).memory = s.memory := rfl
@[simp] theorem State.latch_V (s : State) (c : FatalCause) : (s.latch c).V = s.V := rfl
@[simp] theorem State.latch_I (s : State) (c : FatalCause) : (s.latch c).I = s.I := rfl
@[simp] theorem State.latch_pc (s : State) (c : FatalCause) : (s.latch c).pc = s.pc := rfl
@[simp] theorem State.latch_stack (s : State) (c : FatalCause) : (s.latch c).stack = s.stack := rfl
@[simp] theorem State.latch_display (s : State) (c : FatalCause) : (s.latch c).display = s.display := rfl
@[simp] theorem State.latch_keys (s : State) (c : FatalCause) : (s.latch c).keys = s.keys := rfl
@[simp] theorem State.latch_delayTimer (s : State) (c : FatalCause) : (s.latch c).delayTimer = s.delayTimer := rfl
@[simp] theorem State.latch_soundTimer (s : State) (c : FatalCause) : (s.latch c).soundTimer = s.soundTimer := rfl
@[simp] theorem State.latch_halted (s : State) (c : FatalCause) : (s.latch c).halted = some c := rfl
@[simp] theorem State.latch_diag (s : State) (c : FatalCause) : (s.latch c).diag = s.diag := rfl
@[simp] theorem State.latch_events (s : State) (c : FatalCause) : (s.latch c).events = s.events := rfl
@[simp] theorem State.latch_draws (s : State) (c : FatalCause) : (s.latch c).draws = s.draws := rfl
@[simp] theorem State.getV_latch (s : State) (c : FatalCause) (r : RegIdx) : (s.latch c).getV r = s.getV r := rfl
@[simp] theorem State.readByte_latch (s : State) (c : FatalCause) (b : Addr) : (s.latch c).readByte b = s.readByte b := rfl

/-! ### `State.tick` -/

@[simp] theorem State.tick_memory (s : State) : s.tick.memory = s.memory := rfl
@[simp] theorem State.tick_V (s : State) : s.tick.V = s.V := rfl
@[simp] theorem State.tick_I (s : State) : s.tick.I = s.I := rfl
@[simp] theorem State.tick_pc (s : State) : s.tick.pc = s.pc := rfl
@[simp] theorem State.tick_stack (s : State) : s.tick.stack = s.stack := rfl
@[simp] theorem State.tick_display (s : State) : s.tick.display = s.display := rfl
@[simp] theorem State.tick_keys (s : State) : s.tick.keys = s.keys := rfl
@[simp] theorem State.tick_delayTimer (s : State) : s.tick.delayTimer = tickByte s.delayTimer := rfl
@[simp] theorem State.tick_soundTimer (s : State) : s.tick.soundTimer = tickByte s.soundTimer := rfl
@[simp] theorem State.tick_halted (s : State) : s.tick.halted = s.halted := rfl
@[simp] theorem State.tick_diag (s : State) : s.tick.diag = s.diag := rfl
@[simp] theorem State.tick_events (s : State) : s.tick.events = s.events := rfl
@[simp] theorem State.tick_draws (s : State) : s.tick.draws = s.draws := rfl
@[simp] theorem State.getV_tick (s : State) (r : RegIdx) : s.tick.getV r = s.getV r := rfl
@[simp] theorem State.readByte_tick (s : State) (b : Addr) : s.tick.readByte b = s.readByte b := rfl

/-! ### `State.startCycle` -/

@[simp] theorem State.startCycle_memory (s : State) : s.startCycle.memory = s.memory := rfl
@[simp] theorem State.startCycle_V (s : State) : s.startCycle.V = s.V := rfl
@[simp] theorem State.startCycle_I (s : State) : s.startCycle.I = s.I := rfl
@[simp] theorem State.startCycle_pc (s : State) : s.startCycle.pc = s.pc + 2 := rfl
@[simp] theorem State.startCycle_stack (s : State) : s.startCycle.stack = s.stack := rfl
@[simp] theorem State.startCycle_display (s : State) : s.startCycle.display = s.display := rfl
@[simp] theorem State.startCycle_keys (s : State) : s.startCycle.keys = s.keys := rfl
@[simp] theorem State.startCycle_delayTimer (s : State) : s.startCycle.delayTimer = s.delayTimer := rfl
@[simp] theorem State.startCycle_soundTimer (s : State) : s.startCycle.soundTimer = s.soundTimer := rfl
@[simp] theorem State.startCycle_halted (s : State) : s.startCycle.halted = s.halted := rfl
@[simp] theorem State.startCycle_diag (s : State) : s.startCycle.diag = none := rfl
@[simp] theorem State.startCycle_events (s : State) : s.startCycle.events = s.events := rfl
@[simp] theorem State.startCycle_draws (s : State) : s.startCycle.draws = s.draws := rfl
@[simp] theorem State.getV_startCycle (s : State) (r : RegIdx) : s.startCycle.getV r = s.getV r := rfl
@[simp] theorem State.readByte_startCycle (s : State) (b : Addr) : s.startCycle.readByte b = s.readByte b := rfl

/-! ### `State.setVF` -/

@[simp] theorem State.setVF_memory (s : State) (hit : Bool) : (s.setVF hit).memory = s.memory := rfl
@[simp] theorem State.setVF_V (s : State) (hit : Bool) : (s.setVF hit).V = s.V.set regF.toNat (collisionFlag hit) regF.isLt := rfl
@[simp] theorem State.setVF_I (s : State) (hit : Bool) : (s.setVF hit).I = s.I := rfl
@[simp] theorem State.setVF_pc (s : State) (hit : Bool) : (s.setVF hit).pc = s.pc := rfl
@[simp] theorem State.setVF_stack (s : State) (hit : Bool) : (s.setVF hit).stack = s.stack := rfl
@[simp] theorem State.setVF_display (s : State) (hit : Bool) : (s.setVF hit).display = s.display := rfl
@[simp] theorem State.setVF_keys (s : State) (hit : Bool) : (s.setVF hit).keys = s.keys := rfl
@[simp] theorem State.setVF_delayTimer (s : State) (hit : Bool) : (s.setVF hit).delayTimer = s.delayTimer := rfl
@[simp] theorem State.setVF_soundTimer (s : State) (hit : Bool) : (s.setVF hit).soundTimer = s.soundTimer := rfl
@[simp] theorem State.setVF_halted (s : State) (hit : Bool) : (s.setVF hit).halted = s.halted := rfl
@[simp] theorem State.setVF_diag (s : State) (hit : Bool) : (s.setVF hit).diag = s.diag := rfl
@[simp] theorem State.setVF_events (s : State) (hit : Bool) : (s.setVF hit).events = s.events := rfl
@[simp] theorem State.setVF_draws (s : State) (hit : Bool) : (s.setVF hit).draws = s.draws := rfl
@[simp] theorem State.readByte_setVF (s : State) (hit : Bool) (b : Addr) : (s.setVF hit).readByte b = s.readByte b := rfl

end Sys2Proof.Machine
end

