-- ==== Sys2Proof/Laws/Ops.lean ====
section
/-! SUPPORT. Laws/Ops.lean: for each shared operation, once, what it can do. -/

namespace Sys2Proof.Machine

/-! ### Registers and pixels -/

@[simp] theorem State.getV_setV_same (s : State) (x : RegIdx) (v : Byte) : (s.setV x v).getV x = v := by
  simp [State.getV, State.setV]

theorem State.getV_setV_other (s : State) {x r : RegIdx} (v : Byte) (h : r ≠ x) :
    (s.setV x v).getV r = s.getV r := by
  have : x.toNat ≠ r.toNat := fun e => h (BitVec.eq_of_toNat_eq e.symm)
  simp [State.getV, State.setV, Vector.getElem_set_ne, this]

theorem State.getV_setV (s : State) (x r : RegIdx) (v : Byte) :
    (s.setV x v).getV r = if r = x then v else s.getV r := by
  split
  · next h => subst h; simp
  · next h => exact s.getV_setV_other v h

theorem State.getV_setVF (s : State) (hit : Bool) (r : RegIdx) :
    (s.setVF hit).getV r = if r = 0xF then collisionFlag hit else s.getV r := s.getV_setV regF r _

theorem Display.pixel_setPixel (d : Display) (px qx : Fin Config.dispW) (py qy : Fin Config.dispH) (v : Bool) :
    (d.setPixel px py v).pixel qx qy = if qx = px ∧ qy = py then v else d.pixel qx qy := by
  unfold Display.setPixel Display.pixel
  by_cases hy : qy = py
  · subst hy
    by_cases hx : qx = px
    · subst hx; simp
    · have : px.val ≠ qx.val := fun e => hx (Fin.ext e.symm)
      simp [hx, Vector.getElem_set_ne, this]
  · have : py.val ≠ qy.val := fun e => hy (Fin.ext e.symm)
    simp [hy, Vector.getElem_set_ne, this]

@[simp] theorem Display.pixel_clear (px : Fin Config.dispW) (py : Fin Config.dispH) :
    Display.clear.pixel px py = false := by
  simp [Display.clear, Display.pixel]

/-- Displays with the same pixels are the same data. -/
theorem Display.ext_pixel {d e : Display} (h : ∀ px py, d.pixel px py = e.pixel px py) : d = e := by
  apply Vector.ext
  intro i hi
  apply Vector.ext
  intro j hj
  exact h ⟨j, hj⟩ ⟨i, hi⟩

theorem Canvas.xorPixel_pixel (k : Canvas) (px qx : Fin Config.dispW) (py qy : Fin Config.dispH) :
    (k.xorPixel px py).display.pixel qx qy =
      if qx = px ∧ qy = py then !k.display.pixel px py else k.display.pixel qx qy := by
  simp [Canvas.xorPixel, Display.pixel_setPixel]

theorem Canvas.xorPixel_hit (k : Canvas) (px : Fin Config.dispW) (py : Fin Config.dispH) :
    (k.xorPixel px py).hit = (k.hit || k.display.pixel px py) := rfl

/-! ### Conditions, the fallback, the skip action -/

/-- A fatal condition changes the latch alone and never answers a next state (rule R99). -/
theorem raise_eq (c : FatalCause) (s : State) : raise c s = .fault (.fatal c (s.latch c)) := rfl

/-- The fallback changes the outputs alone (rule R140). -/
theorem unknownOpcode_eq (op : Word) (s : State) : unknownOpcode op s = .next (s.emit (.unknownOpcode op)) := rfl

theorem skipIf_pc (c : Bool) (s : State) : (skipIf c s).pc = if c then s.pc + 2 else s.pc := by
  unfold skipIf; split <;> rfl

/-- A skip changes pc alone (rule R115). -/
theorem skipIf_eq (c : Bool) (s : State) : skipIf c s = s.setPc (skipIf c s).pc := by
  unfold skipIf; split <;> rfl

/-! ### Operands -/

/-- A key index below 16 names a flag (rules R120, R121). -/
theorem State.keyDown?_of_lt (s : State) {k : Byte} (h : k.toNat < 16) :
    s.keyDown? k = some (s.keys[k.toNat]'h) := dif_pos h

/-- A key index of 16 or more names none (rule R122). -/
theorem State.keyDown?_eq_none {s : State} {k : Byte} : s.keyDown? k = none ↔ 16 ≤ k.toNat := by
  unfold State.keyDown?
  split <;> simp_all [Config.nKeys]

theorem spriteOutOfRange_iff (base : Addr) (n : Nibble) :
    spriteOutOfRange base n = true ↔ 0 < n.toNat ∧ 0xFFF < base.toNat + n.toNat - 1 := by
  simp [spriteOutOfRange]

/-- A sprite row has no memory cell exactly as rule R107 says. -/
theorem State.spriteRows?_eq_none {s : State} {base : Addr} {n : Nibble} :
    s.spriteRows? base n = none ↔ 0 < n.toNat ∧ 0xFFF < base.toNat + n.toNat - 1 := by
  rw [← spriteOutOfRange_iff]
  unfold State.spriteRows?
  split <;> simp_all

theorem State.spriteBytes_length (s : State) (base : Addr) (todo r : Nat) :
    (s.spriteBytes base todo r).length = todo := by
  induction todo generalizing r with
  | zero => rfl
  | succ n ih => simp [State.spriteBytes, ih]

/-- The byte of a row offset. -/
theorem State.spriteBytes_getElem (s : State) (base : Addr) (todo r k : Nat) (h : k < todo) :
    (s.spriteBytes base todo r)[k]'(by rw [State.spriteBytes_length]; exact h) =
      s.readByte (base + BitVec.ofNat 12 (r + k)) := by
  induction todo generalizing r k with
  | zero => omega
  | succ n ih =>
    cases k with
    | zero => rfl
    | succ k =>
      have := ih (r + 1) k (by omega)
      rw [show r + (k + 1) = r + 1 + k by omega, ← this]
      rfl

theorem addByte_toNat (v nn : Byte) : (addByte v nn).toNat = (v.toNat + nn.toNat) % 256 := by
  simp [addByte, BitVec.toNat_add]

theorem addIndex_toNat (i : Addr) (v : Byte) : (addIndex i v).toNat = (i.toNat + v.toNat) % 4096 := by
  have : v.toNat < 256 := v.isLt
  simp [addIndex, BitVec.toNat_add]

theorem tickByte_toNat (t : Byte) : (tickByte t).toNat = t.toNat - 1 := by
  unfold tickByte
  split
  · next h => subst h; rfl
  · next h =>
    have hne : t.toNat ≠ 0 := fun e => h (BitVec.eq_of_toNat_eq e)
    have := t.isLt
    rw [BitVec.toNat_sub]
    simp
    omega

@[simp] theorem State.stackFull_eq (s : State) : s.stackFull = false := rfl

/-! ### The phases of a cycle -/

theorem State.pcOutOfBounds_iff (s : State) : s.pcOutOfBounds = true ↔ 0xFFE ≤ s.pc.toNat := by
  simp [State.pcOutOfBounds, pcOobThreshold, BitVec.le_def]

theorem State.skipCycle_eq (s : State) : s.skipCycle = s.emit (.pcOutOfBounds s.pc) := rfl

/-- The end of a cycle answers a next state only where the instruction did, with both timers ticked. -/
theorem endCycle_next {r : Result} {t : State} (h : endCycle r = .next t) : ∃ u, r = .next u ∧ t = u.tick := by
  cases r with
  | next u => exact ⟨u, rfl, by simpa [endCycle] using h.symm⟩
  | fault f => simp [endCycle] at h
  | refused r => simp [endCycle] at h

/-- The end of a cycle stops exactly where the instruction did. -/
theorem endCycle_fault {r : Result} {f : Fault} : endCycle r = .fault f ↔ r = .fault f := by
  cases r <;> simp [endCycle]

theorem endCycle_refused {r : Result} {x : Refusal} : endCycle r = .refused x ↔ r = .refused x := by
  cases r <;> simp [endCycle]

end Sys2Proof.Machine
end

