-- ==== Sys2Proof/Laws/Exec.lean ====
section
/-! SUPPORT. Laws/Exec.lean: each instruction over the shared operations, one equation per instruction (two
where the rule has two cases), so that no proof unfolds `exec`; and what one step can do. -/

namespace Sys2Proof.Machine

open Sys2Proof.Safety

theorem exec_cls (s : State) : exec .cls s = .next (s.setDisplay Display.clear) := rfl

theorem exec_ret_nil {s : State} (h : s.stack = []) : exec .ret s = raise .stackUnderflow s := by
  simp [exec, execRet, h]

theorem exec_ret_cons {s : State} {a : Addr} {l : List Addr} (h : s.stack = a :: l) :
    exec .ret s = .next ((s.setStack l).setPc a) := by simp [exec, execRet, h]

theorem exec_jp (nnn : Addr) (s : State) : exec (.jp nnn) s = .next (s.setPc nnn) := rfl

theorem exec_call (nnn : Addr) (s : State) : exec (.call nnn) s = .next ((s.push s.pc).setPc nnn) := rfl

theorem exec_seImm (x : RegIdx) (nn : Byte) (s : State) :
    exec (.seImm x nn) s = .next (skipIf (s.getV x == nn) s) := rfl

theorem exec_sneImm (x : RegIdx) (nn : Byte) (s : State) :
    exec (.sneImm x nn) s = .next (skipIf (s.getV x != nn) s) := rfl

theorem exec_seReg (x y : RegIdx) (s : State) :
    exec (.seReg x y) s = .next (skipIf (s.getV x == s.getV y) s) := rfl

theorem exec_sneReg (x y : RegIdx) (s : State) :
    exec (.sneReg x y) s = .next (skipIf (s.getV x != s.getV y) s) := rfl

theorem exec_ldImm (x : RegIdx) (nn : Byte) (s : State) : exec (.ldImm x nn) s = .next (s.setV x nn) := rfl

theorem exec_addImm (x : RegIdx) (nn : Byte) (s : State) :
    exec (.addImm x nn) s = .next (s.setV x (addByte (s.getV x) nn)) := rfl

theorem exec_ldI (nnn : Addr) (s : State) : exec (.ldI nnn) s = .next (s.setI nnn) := rfl

theorem exec_rnd (x : RegIdx) (nn : Byte) (s : State) :
    exec (.rnd x nn) s = .next ((s.setV x (s.rnd &&& nn)).nextDraw) := rfl

theorem exec_drw_out {s : State} {n : Nibble} (x y : RegIdx)
    (h : 0 < n.toNat ∧ 0xFFF < s.I.toNat + n.toNat - 1) :
    exec (.drw x y n) s = raise (.spriteAddressRange s.I n) s := by
  simp only [exec, execDrw, State.spriteRows?_eq_none.2 h]

/-- What the drawing unit leaves of the whole sprite (rule R106). -/
def drawn (x y : RegIdx) (n : Nibble) (s : State) : Canvas :=
  Canvas.drawRows (s.getV x) (s.getV y) 0 (s.spriteBytes s.I n.toNat 0) ⟨s.display, false⟩

theorem exec_drw_in {s : State} {n : Nibble} (x y : RegIdx)
    (h : ¬(0 < n.toNat ∧ 0xFFF < s.I.toNat + n.toNat - 1)) :
    exec (.drw x y n) s = .next ((s.setDisplay (drawn x y n s).display).setVF (drawn x y n s).hit) := by
  have : spriteOutOfRange s.I n = false := by
    cases hb : spriteOutOfRange s.I n with
    | false => rfl
    | true => exact absurd ((spriteOutOfRange_iff _ _).1 hb) h
  simp only [exec, execDrw, State.spriteRows?, this]
  rfl

theorem exec_skp_out {s : State} {x : RegIdx} (h : 16 ≤ (s.getV x).toNat) :
    exec (.skp x) s = raise (.keyIndexRange (s.getV x)) s := by
  simp only [exec, execSkp, State.keyDown?_eq_none.2 h]

theorem exec_skp_in {s : State} {x : RegIdx} (h : (s.getV x).toNat < 16) :
    exec (.skp x) s = .next (skipIf (s.keys[(s.getV x).toNat]'h) s) := by
  simp only [exec, execSkp, State.keyDown?_of_lt s h]

theorem exec_sknp_out {s : State} {x : RegIdx} (h : 16 ≤ (s.getV x).toNat) :
    exec (.sknp x) s = raise (.keyIndexRange (s.getV x)) s := by
  simp only [exec, execSknp, State.keyDown?_eq_none.2 h]

theorem exec_sknp_in {s : State} {x : RegIdx} (h : (s.getV x).toNat < 16) :
    exec (.sknp x) s = .next (skipIf (!(s.keys[(s.getV x).toNat]'h)) s) := by
  simp only [exec, execSknp, State.keyDown?_of_lt s h]

theorem exec_ldVxDT (x : RegIdx) (s : State) : exec (.ldVxDT x) s = .next (s.setV x s.delayTimer) := rfl

theorem exec_ldDTVx (x : RegIdx) (s : State) : exec (.ldDTVx x) s = .next (s.setDelayTimer (s.getV x)) := rfl

theorem exec_ldSTVx (x : RegIdx) (s : State) : exec (.ldSTVx x) s = .next (s.setSoundTimer (s.getV x)) := rfl

theorem exec_addI (x : RegIdx) (s : State) : exec (.addI x) s = .next (s.setI (addIndex s.I (s.getV x))) := rfl

/-- The fallback, of every unimplemented word with its own raw word (rule R140). -/
theorem exec_unimplemented {i : Instr} (s : State) (h : i.implemented = false) :
    exec i s = .next (s.emit (.unknownOpcode (encode i))) := by
  cases i <;> first | rfl | simp [Instr.implemented] at h

/-! ### What one step can do -/

/-- A step that answers a next state skipped its cycle, or executed the current instruction and ticked. -/
theorem step_next_cases {s t : State} (h : step s = .next t) :
    s.halted = none ∧
      ((0xFFE ≤ s.pc.toNat ∧ t = s.skipCycle) ∨
        (s.pc.toNat < 0xFFE ∧ ∃ u, exec (current s) s.startCycle = .next u ∧ t = u.tick)) := by
  unfold step at h
  split at h
  · exact nomatch h
  · next hn =>
    refine ⟨hn, ?_⟩
    split at h
    · next ho => exact .inl ⟨s.pcOutOfBounds_iff.1 ho, by simpa using h.symm⟩
    · next ho =>
      have := mt s.pcOutOfBounds_iff.2 ho
      obtain ⟨u, hu, ht⟩ := endCycle_next h
      exact .inr ⟨by omega, u, hu, ht⟩

/-- A step that stops was invoked on a halted core, or its instruction stopped. -/
theorem step_fault_cases {s : State} {f : Fault} (h : step s = .fault f) :
    (∃ c, s.halted = some c ∧ f = .halted c) ∨
      (s.halted = none ∧ s.pc.toNat < 0xFFE ∧ exec (current s) s.startCycle = .fault f) := by
  unfold step at h
  split at h
  · next c hc => exact .inl ⟨c, hc, by simpa using h.symm⟩
  · next hn =>
    split at h
    · exact nomatch h
    · next ho =>
      have := mt s.pcOutOfBounds_iff.2 ho
      exact .inr ⟨hn, by omega, endCycle_fault.1 h⟩

end Sys2Proof.Machine
end

