-- ==== Sys2Proof/Laws/Draw.lean ====
section
/-! SUPPORT. Laws/Draw.lean: what the drawing unit does to a canvas (spec/41_display.md rule R106 (c)). No
pixel is touched twice within one sprite, so the result does not depend on the order of the loops: every
covered pixel is flipped, and the collision is whether some covered pixel was lit before. -/

namespace Sys2Proof.Machine

/-- The pixel one of the columns `c, …, c + todo - 1` of a row byte lands on (rule R106). -/
def RowCovers (vx vy row : Byte) (r todo c : Nat) (px : Fin Config.dispW) (py : Fin Config.dispH) : Prop :=
  py = spriteRow vy r ∧ ∃ j, c ≤ j ∧ j < c + todo ∧ spriteBit row j = true ∧ px = spriteColumn vx j

/-- The pixel one of the row bytes at offsets `r, r + 1, …` lands on (rule R106). -/
def RowsCover (vx vy : Byte) (r : Nat) (rows : List Byte) (px : Fin Config.dispW) (py : Fin Config.dispH) : Prop :=
  ∃ i, ∃ h : i < rows.length, RowCovers vx vy rows[i] (r + i) Config.spriteW 0 px py

theorem spriteColumn_inj {vx : Byte} {c j : Nat} (h : spriteColumn vx c = spriteColumn vx j)
    (hcj : c ≤ j) (hlt : j < c + 64) : j = c := by
  have := congrArg Fin.val h
  simp only [spriteColumn] at this
  omega

theorem spriteRow_inj {vy : Byte} {r j : Nat} (h : spriteRow vy r = spriteRow vy j)
    (hrj : r ≤ j) (hlt : j < r + 32) : j = r := by
  have := congrArg Fin.val h
  simp only [spriteRow] at this
  omega

/-- The columns from `c` are the column `c` and the columns from `c + 1`. -/
theorem RowCovers.succ {vx vy row : Byte} {r todo c : Nat} {px : Fin Config.dispW} {py : Fin Config.dispH} :
    RowCovers vx vy row r (todo + 1) c px py ↔
      (spriteBit row c = true ∧ px = spriteColumn vx c ∧ py = spriteRow vy r) ∨
        RowCovers vx vy row r todo (c + 1) px py := by
  constructor
  · rintro ⟨hy, j, h1, h2, hb, hx⟩
    rcases Nat.eq_or_lt_of_le h1 with rfl | hlt
    · exact .inl ⟨hb, hx, hy⟩
    · exact .inr ⟨hy, j, hlt, by omega, hb, hx⟩
  · rintro (⟨hb, hx, hy⟩ | ⟨hy, j, h1, h2, hb, hx⟩)
    · exact ⟨hy, c, Nat.le_refl _, by omega, hb, hx⟩
    · exact ⟨hy, j, by omega, by omega, hb, hx⟩

/-- The rows from `r` are the row `r` and the rows from `r + 1`. -/
theorem RowsCover.cons {vx vy : Byte} {r : Nat} {row : Byte} {rows : List Byte} {px : Fin Config.dispW}
    {py : Fin Config.dispH} :
    RowsCover vx vy r (row :: rows) px py ↔
      RowCovers vx vy row r Config.spriteW 0 px py ∨ RowsCover vx vy (r + 1) rows px py := by
  constructor
  · rintro ⟨i, h, hc⟩
    cases i with
    | zero => exact .inl hc
    | succ i => exact .inr ⟨i, by simpa using h, by rw [show r + 1 + i = r + (i + 1) by omega]; exact hc⟩
  · rintro (hc | ⟨i, h, hc⟩)
    · exact ⟨0, by simp, hc⟩
    · exact ⟨i + 1, by simpa using h, by rw [show r + (i + 1) = r + 1 + i by omega]; exact hc⟩

/-- ONE COLUMN of a row: the pixel it lands on is flipped where its bit is set. -/
theorem Canvas.column_pixel (k : Canvas) (b : Bool) (cx px : Fin Config.dispW) (cy py : Fin Config.dispH) :
    (if b then k.xorPixel cx cy else k).display.pixel px py =
      ((b && decide (px = cx ∧ py = cy)) ^^ k.display.pixel px py) := by
  cases b with
  | false => simp
  | true =>
    rw [if_pos rfl, Canvas.xorPixel_pixel]
    by_cases h : px = cx ∧ py = cy
    · obtain ⟨rfl, rfl⟩ := h; simp
    · simp [h]

theorem Canvas.column_hit (k : Canvas) (b : Bool) (cx : Fin Config.dispW) (cy : Fin Config.dispH) :
    (if b then k.xorPixel cx cy else k).hit = (k.hit || (b && k.display.pixel cx cy)) := by
  cases b <;> simp [Canvas.xorPixel_hit]

/-- ONE ROW: every pixel its columns cover is flipped, and no other. -/
theorem Canvas.drawRow_pixel (vx vy row : Byte) (r todo c : Nat) (k : Canvas) (h : c + todo ≤ 64)
    (px : Fin Config.dispW) (py : Fin Config.dispH) :
    (Canvas.drawRow vx vy row r todo c k).display.pixel px py = true ↔
      (k.display.pixel px py = true ↔ ¬ RowCovers vx vy row r todo c px py) := by
  induction todo generalizing c k with
  | zero =>
    have : ¬ RowCovers vx vy row r 0 c px py := by rintro ⟨-, j, h1, h2, -⟩; omega
    simp [Canvas.drawRow, this]
  | succ todo ih =>
    have hdis : RowCovers vx vy row r todo (c + 1) px py → px ≠ spriteColumn vx c := by
      rintro ⟨-, j, h1, h2, -, hx⟩ hc
      have := spriteColumn_inj (hc.symm.trans hx) (by omega) (by omega)
      omega
    rw [Canvas.drawRow, ih (c + 1) _ (by omega), RowCovers.succ, Canvas.column_pixel]
    by_cases hr : RowCovers vx vy row r todo (c + 1) px py
    · simp [hr, hdis hr]
    · by_cases hb : spriteBit row c = true
      · by_cases hp : px = spriteColumn vx c ∧ py = spriteRow vy r
        · obtain ⟨rfl, rfl⟩ := hp; simp [hr, hb]
        · simp [hr, hb, hp]
      · simp [hr, hb]

/-- ONE ROW: a collision is recorded where a covered pixel was lit. -/
theorem Canvas.drawRow_hit (vx vy row : Byte) (r todo c : Nat) (k : Canvas) (h : c + todo ≤ 64) :
    (Canvas.drawRow vx vy row r todo c k).hit = true ↔
      k.hit = true ∨ ∃ px py, RowCovers vx vy row r todo c px py ∧ k.display.pixel px py = true := by
  induction todo generalizing c k with
  | zero =>
    have : ∀ px py, ¬ RowCovers vx vy row r 0 c px py := by rintro px py ⟨-, j, h1, h2, -⟩; omega
    simp [Canvas.drawRow, this]
  | succ todo ih =>
    have hdis : ∀ px py, RowCovers vx vy row r todo (c + 1) px py → px ≠ spriteColumn vx c := by
      rintro px py ⟨-, j, h1, h2, -, hx⟩ hc
      have := spriteColumn_inj (hc.symm.trans hx) (by omega) (by omega)
      omega
    rw [Canvas.drawRow, ih (c + 1) _ (by omega), Canvas.column_hit]
    constructor
    · rintro (hk | ⟨px, py, hc, hp⟩)
      · simp only [Bool.or_eq_true, Bool.and_eq_true] at hk
        rcases hk with hk | ⟨hb, hp⟩
        · exact .inl hk
        · exact .inr ⟨_, _, RowCovers.succ.2 (.inl ⟨hb, rfl, rfl⟩), hp⟩
      · rw [Canvas.column_pixel] at hp
        simp only [hdis px py hc, false_and, decide_false, Bool.and_false, Bool.false_xor] at hp
        exact .inr ⟨px, py, RowCovers.succ.2 (.inr hc), hp⟩
    · rintro (hk | ⟨px, py, hc, hp⟩)
      · exact .inl (by simp [hk])
      · rcases RowCovers.succ.1 hc with ⟨hb, rfl, rfl⟩ | hc
        · exact .inl (by simp [hb, hp])
        · refine .inr ⟨px, py, hc, ?_⟩
          rw [Canvas.column_pixel]
          simp [hdis px py hc, hp]

/-- THE WHOLE SPRITE: every pixel a row covers is flipped, and no other (at most 32 rows). -/
theorem Canvas.drawRows_pixel (vx vy : Byte) (r : Nat) (rows : List Byte) (k : Canvas)
    (h : rows.length ≤ 32) (px : Fin Config.dispW) (py : Fin Config.dispH) :
    (Canvas.drawRows vx vy r rows k).display.pixel px py = true ↔
      (k.display.pixel px py = true ↔ ¬ RowsCover vx vy r rows px py) := by
  induction rows generalizing r k with
  | nil =>
    have : ¬ RowsCover vx vy r [] px py := by rintro ⟨i, hi, -⟩; simp at hi
    simp [Canvas.drawRows, this]
  | cons row rows ih =>
    simp only [List.length_cons] at h
    have hdis : RowsCover vx vy (r + 1) rows px py → ¬ RowCovers vx vy row r Config.spriteW 0 px py := by
      rintro ⟨i, hi, hy, -⟩ ⟨hy', -⟩
      have := spriteRow_inj (hy'.symm.trans hy) (by omega) (by omega)
      omega
    rw [Canvas.drawRows, ih (r + 1) _ (by omega), RowsCover.cons,
      Canvas.drawRow_pixel vx vy row r _ 0 k (by decide)]
    by_cases hr : RowsCover vx vy (r + 1) rows px py
    · simp [hr, hdis hr]
    · by_cases hc : RowCovers vx vy row r Config.spriteW 0 px py <;> simp [hr, hc]

/-- THE WHOLE SPRITE: a collision is recorded where a covered pixel was lit before the drawing. -/
theorem Canvas.drawRows_hit (vx vy : Byte) (r : Nat) (rows : List Byte) (k : Canvas)
    (h : rows.length ≤ 32) :
    (Canvas.drawRows vx vy r rows k).hit = true ↔
      k.hit = true ∨ ∃ px py, RowsCover vx vy r rows px py ∧ k.display.pixel px py = true := by
  induction rows generalizing r k with
  | nil =>
    have : ∀ px py, ¬ RowsCover vx vy r [] px py := by rintro px py ⟨i, hi, -⟩; simp at hi
    simp [Canvas.drawRows, this]
  | cons row rows ih =>
    simp only [List.length_cons] at h
    have hdis : ∀ px py, RowsCover vx vy (r + 1) rows px py →
        ¬ RowCovers vx vy row r Config.spriteW 0 px py := by
      rintro px py ⟨i, hi, hy, -⟩ ⟨hy', -⟩
      have := spriteRow_inj (hy'.symm.trans hy) (by omega) (by omega)
      omega
    rw [Canvas.drawRows, ih (r + 1) _ (by omega), Canvas.drawRow_hit vx vy row r _ 0 k (by decide)]
    constructor
    · rintro ((hk | ⟨px, py, hc, hp⟩) | ⟨px, py, hc, hp⟩)
      · exact .inl hk
      · exact .inr ⟨px, py, RowsCover.cons.2 (.inl hc), hp⟩
      · rw [Canvas.drawRow_pixel vx vy row r _ 0 k (by decide)] at hp
        exact .inr ⟨px, py, RowsCover.cons.2 (.inr hc), hp.2 (hdis px py hc)⟩
    · rintro (hk | ⟨px, py, hc, hp⟩)
      · exact .inl (.inl hk)
      · rcases RowsCover.cons.1 hc with hc | hc
        · exact .inl (.inr ⟨px, py, hc, hp⟩)
        · refine .inr ⟨px, py, hc, ?_⟩
          rw [Canvas.drawRow_pixel vx vy row r _ 0 k (by decide)]
          simp [hp, hdis px py hc]

end Sys2Proof.Machine
end

