-- ==== Sys2Proof/Laws/Memory.lean ====
section
/-! SUPPORT. Laws/Memory.lean: memory as a list in canonical form. A read after a write gives the byte
written, a write leaves every other cell alone, and every memory operation keeps `Memory.wf`. -/

namespace Sys2Proof.Machine

@[simp] theorem Memory.read_nil (a : Nat) : Memory.read [] a = 0 := rfl

theorem Memory.read_cons_same (a : Nat) (b : Byte) (m : Memory) : Memory.read ((a, b) :: m) a = b := by
  simp [Memory.read]

theorem Memory.read_cons_other (m : Memory) (c : Host.Cell) (a : Nat) (h : a ≠ c.1) :
    Memory.read (c :: m) a = Memory.read m a := by
  obtain ⟨a', b'⟩ := c
  simp_all [Memory.read]

/-- An address below every listed one reads 0. -/
theorem Memory.read_below {m : Memory} {a : Nat} (h : m.all (fun c => decide (a < c.1)) = true) :
    Memory.read m a = 0 := by
  induction m with
  | nil => rfl
  | cons c m ih =>
    simp only [List.all_cons, Bool.and_eq_true, decide_eq_true_eq] at h
    rw [Memory.read_cons_other m c a (by omega), ih h.2]

theorem Memory.wf_cons {a : Nat} {b : Byte} {m : Memory} :
    Memory.wf ((a, b) :: m) = true ↔
      a < 4096 ∧ b ≠ 0 ∧ m.all (fun c => decide (a < c.1)) = true ∧ Memory.wf m = true := by
  simp only [Memory.wf, Bool.and_eq_true, decide_eq_true_eq, bne_iff_ne, and_assoc]
  exact Iff.rfl

/-- What lies above `a'` lies above every `a` below it. -/
theorem Memory.all_above_mono {m : Memory} {a a' : Nat} (h : a < a')
    (hm : m.all (fun c => decide (a' < c.1)) = true) : m.all (fun c => decide (a < c.1)) = true := by
  simp only [List.all_eq_true, decide_eq_true_eq] at hm ⊢
  exact fun c hc => Nat.lt_trans h (hm c hc)

theorem Memory.read_consCell_same {a : Nat} {b : Byte} {m : Memory}
    (h : m.all (fun c => decide (a < c.1)) = true) : Memory.read (Memory.cons a b m) a = b := by
  unfold Memory.cons
  split
  · next hb => rw [hb, Memory.read_below h]
  · exact Memory.read_cons_same a b m

theorem Memory.read_consCell_other {a a' : Nat} {b : Byte} {m : Memory} (h : a' ≠ a) :
    Memory.read (Memory.cons a b m) a' = Memory.read m a' := by
  unfold Memory.cons
  split
  · rfl
  · exact Memory.read_cons_other m (a, b) a' h

theorem Memory.wf_consCell {a : Nat} {b : Byte} {m : Memory} (ha : a < 4096)
    (h : m.all (fun c => decide (a < c.1)) = true) (hm : m.wf = true) : (Memory.cons a b m).wf = true := by
  unfold Memory.cons
  split
  · exact hm
  · next hb => exact Memory.wf_cons.2 ⟨ha, hb, h, hm⟩

/-- READ AFTER WRITE, the same address. -/
theorem Memory.read_write_same {m : Memory} (hm : m.wf = true) (a : Nat) (b : Byte) :
    (m.write a b).read a = b := by
  induction m with
  | nil => exact Memory.read_consCell_same rfl
  | cons c m ih =>
    obtain ⟨a', b'⟩ := c
    obtain ⟨_, _, habove, hwf⟩ := Memory.wf_cons.1 hm
    unfold Memory.write
    split
    · next h =>
      refine Memory.read_consCell_same ?_
      simp only [List.all_cons, Bool.and_eq_true, decide_eq_true_eq]
      exact ⟨h, Memory.all_above_mono h habove⟩
    · split
      · next h => subst h; exact Memory.read_consCell_same habove
      · next h => rw [Memory.read_cons_other _ (a', b') a h, ih hwf]

/-- READ AFTER WRITE, another address. -/
theorem Memory.read_write_other (m : Memory) {a a' : Nat} (b : Byte) (h : a' ≠ a) :
    (m.write a b).read a' = m.read a' := by
  induction m with
  | nil => exact Memory.read_consCell_other h
  | cons c m ih =>
    obtain ⟨k, b'⟩ := c
    unfold Memory.write
    split
    · exact Memory.read_consCell_other h
    · split
      · next hk => subst hk; rw [Memory.read_consCell_other h, Memory.read_cons_other m (a, b') a' h]
      · by_cases hk : a' = k
        · subst hk; simp [Memory.read]
        · rw [Memory.read_cons_other _ (k, b') a' hk, Memory.read_cons_other m (k, b') a' hk, ih]

/-- A write lists nothing at or below a bound that it did not list before and that is not its own. -/
theorem Memory.write_all_above {m : Memory} {k a : Nat} {b : Byte} (hk : k < a)
    (h : m.all (fun c => decide (k < c.1)) = true) :
    (m.write a b).all (fun c => decide (k < c.1)) = true := by
  induction m with
  | nil => unfold Memory.write Memory.cons; split <;> simp [hk]
  | cons c m ih =>
    obtain ⟨a', b'⟩ := c
    simp only [List.all_cons, Bool.and_eq_true, decide_eq_true_eq] at h
    unfold Memory.write Memory.cons
    split <;> split <;> try split
    all_goals simp only [List.all_cons, Bool.and_eq_true, decide_eq_true_eq, h, hk, ih h.2, and_self]

/-- A write keeps the canonical form. -/
theorem Memory.write_wf {m : Memory} (hm : m.wf = true) {a : Nat} (ha : a < 4096) (b : Byte) :
    (m.write a b).wf = true := by
  induction m with
  | nil => exact Memory.wf_consCell ha rfl rfl
  | cons c m ih =>
    obtain ⟨a', b'⟩ := c
    obtain ⟨ha', hb', habove, hwf⟩ := Memory.wf_cons.1 hm
    unfold Memory.write
    split
    · next h =>
      refine Memory.wf_consCell ha ?_ hm
      simp only [List.all_cons, Bool.and_eq_true, decide_eq_true_eq]
      exact ⟨h, Memory.all_above_mono h habove⟩
    · split
      · next h => subst h; exact Memory.wf_consCell ha habove hwf
      · exact Memory.wf_cons.2 ⟨ha', hb', Memory.write_all_above (by omega) habove, ih hwf⟩

/-- Writing consecutive bytes that end inside memory keeps the canonical form. -/
theorem Memory.writeBytes_wf {m : Memory} (hm : m.wf = true) {a : Nat} (bs : List Byte)
    (h : a + bs.length ≤ 4096) : (m.writeBytes a bs).wf = true := by
  induction bs generalizing m a with
  | nil => exact hm
  | cons b bs ih =>
    simp only [List.length_cons] at h
    exact ih (Memory.write_wf hm (by omega) b) (by omega)

/-- Reading below the first byte written, or past the last one. -/
theorem Memory.read_writeBytes_outside (m : Memory) {a k : Nat} (bs : List Byte)
    (h : k < a ∨ a + bs.length ≤ k) : (m.writeBytes a bs).read k = m.read k := by
  induction bs generalizing m a with
  | nil => rfl
  | cons b bs ih =>
    simp only [List.length_cons] at h
    show ((m.write a b).writeBytes (a + 1) bs).read k = _
    rw [ih (m.write a b) (by omega), Memory.read_write_other m b (by omega)]

/-- Reading a byte written. -/
theorem Memory.read_writeBytes_inside {m : Memory} (hm : m.wf = true) {a : Nat} (bs : List Byte)
    (hin : a + bs.length ≤ 4096) (k : Nat) (hk : k < bs.length) :
    (m.writeBytes a bs).read (a + k) = bs[k] := by
  induction bs generalizing m a k with
  | nil => simp at hk
  | cons b bs ih =>
    simp only [List.length_cons] at hin hk
    show ((m.write a b).writeBytes (a + 1) bs).read (a + k) = _
    cases k with
    | zero =>
      rw [Memory.read_writeBytes_outside _ bs (by omega)]
      exact Memory.read_write_same hm a b
    | succ k =>
      have := ih (a := a + 1) (Memory.write_wf hm (a := a) (by omega) b) (by omega) k (by omega)
      rw [show a + (k + 1) = a + 1 + k by omega, this]
      rfl

/-- Memory after reset is in canonical form. -/
theorem State.reset_memory_wf : Memory.wf State.reset.memory = true := rfl

/-- Two memories in canonical form that read the same everywhere are the same data. -/
theorem Memory.eq_of_read_eq {m m' : Memory} (hm : m.wf = true) (hm' : m'.wf = true)
    (h : ∀ a, m.read a = m'.read a) : m = m' := by
  induction m generalizing m' with
  | nil =>
    cases m' with
    | nil => rfl
    | cons c m' =>
      obtain ⟨a, b⟩ := c
      have := h a
      rw [Memory.read_cons_same] at this
      exact absurd this.symm (Memory.wf_cons.1 hm').2.1
  | cons c m ih =>
    obtain ⟨a, b⟩ := c
    obtain ⟨-, hb, habove, hwf⟩ := Memory.wf_cons.1 hm
    cases m' with
    | nil => have := h a; rw [Memory.read_cons_same] at this; exact absurd this hb
    | cons c' m' =>
      obtain ⟨a', b'⟩ := c'
      obtain ⟨-, hb', habove', hwf'⟩ := Memory.wf_cons.1 hm'
      have h1 := h a
      have h2 := h a'
      rw [Memory.read_cons_same] at h1 h2
      rcases Nat.lt_trichotomy a a' with hlt | heq | hgt
      · have hz : Memory.read ((a', b') :: m') a = 0 := Memory.read_below (by
          simp only [List.all_cons, Bool.and_eq_true, decide_eq_true_eq]
          exact ⟨hlt, Memory.all_above_mono hlt habove'⟩)
        exact absurd (h1.trans hz) hb
      · subst heq
        rw [Memory.read_cons_same] at h1
        subst h1
        refine congrArg _ (ih hwf hwf' fun k => ?_)
        by_cases hk : k = a
        · subst hk; rw [Memory.read_below habove, Memory.read_below habove']
        · have := h k
          rwa [Memory.read_cons_other m (a, b) k hk, Memory.read_cons_other m' (a, b) k hk] at this
      · have hz : Memory.read ((a, b) :: m) a' = 0 := Memory.read_below (by
          simp only [List.all_cons, Bool.and_eq_true, decide_eq_true_eq]
          exact ⟨hgt, Memory.all_above_mono hgt habove⟩)
        exact absurd (h2.symm.trans hz) hb'

end Sys2Proof.Machine
end

