-- ==== Sys2Proof/Laws/PerInstr.lean ====
section
/-! SUPPORT. Laws/PerInstr.lean: statements made per instruction about its syntax and encoding. The family
`FixedBits`: the word an instruction encodes as has the fixed bits of its row of the opcode table
(spec/30_encoding.md rules R75, R81). -/

namespace Sys2Proof.Laws.FixedBits

/-- The encoded word selects the instruction's row. -/
def Statement (i : Instr) : Prop := i.row.selects (encode i) = true

theorem selects_of_eq {m p w : Word} (h : w &&& m = p) : OpcodeRow.selects ⟨m, p⟩ w = true := by
  simp [OpcodeRow.selects, h]

theorem cls : Statement .cls := rfl
theorem ret : Statement .ret := rfl
theorem jp (nnn : Addr) : Statement (.jp nnn) := selects_of_eq (wordNNN_mask 0x1 nnn)
theorem call (nnn : Addr) : Statement (.call nnn) := selects_of_eq (wordNNN_mask 0x2 nnn)
theorem seImm (x : RegIdx) (nn : Byte) : Statement (.seImm x nn) := selects_of_eq (wordXNN_mask 0x3 x nn)
theorem sneImm (x : RegIdx) (nn : Byte) : Statement (.sneImm x nn) := selects_of_eq (wordXNN_mask 0x4 x nn)
theorem seReg (x y : RegIdx) : Statement (.seReg x y) := selects_of_eq (wordXY0_mask 0x5 x y 0)
theorem ldImm (x : RegIdx) (nn : Byte) : Statement (.ldImm x nn) := selects_of_eq (wordXNN_mask 0x6 x nn)
theorem addImm (x : RegIdx) (nn : Byte) : Statement (.addImm x nn) := selects_of_eq (wordXNN_mask 0x7 x nn)
theorem sneReg (x y : RegIdx) : Statement (.sneReg x y) := selects_of_eq (wordXY0_mask 0x9 x y 0)
theorem ldI (nnn : Addr) : Statement (.ldI nnn) := selects_of_eq (wordNNN_mask 0xA nnn)
theorem rnd (x : RegIdx) (nn : Byte) : Statement (.rnd x nn) := selects_of_eq (wordXNN_mask 0xC x nn)
theorem drw (x y : RegIdx) (n : Nibble) : Statement (.drw x y n) := selects_of_eq (wordXYN_mask 0xD x y n)
theorem skp (x : RegIdx) : Statement (.skp x) := selects_of_eq (wordXKK_mask 0xE x 0x9E)
theorem sknp (x : RegIdx) : Statement (.sknp x) := selects_of_eq (wordXKK_mask 0xE x 0xA1)
theorem ldVxDT (x : RegIdx) : Statement (.ldVxDT x) := selects_of_eq (wordXKK_mask 0xF x 0x07)
theorem ldDTVx (x : RegIdx) : Statement (.ldDTVx x) := selects_of_eq (wordXKK_mask 0xF x 0x15)
theorem ldSTVx (x : RegIdx) : Statement (.ldSTVx x) := selects_of_eq (wordXKK_mask 0xF x 0x18)
theorem addI (x : RegIdx) : Statement (.addI x) := selects_of_eq (wordXKK_mask 0xF x 0x1E)
theorem unimpl8xy (x y : RegIdx) (n : Nibble) : Statement (.unimpl8xy x y n) :=
  selects_of_eq (wordXYN_mask 0x8 x y n)
theorem unimplBnnn (nnn : Addr) : Statement (.unimplBnnn nnn) := selects_of_eq (wordNNN_mask 0xB nnn)
theorem unimplFx0A (x : RegIdx) : Statement (.unimplFx0A x) := selects_of_eq (wordXKK_mask 0xF x 0x0A)
theorem unimplFx29 (x : RegIdx) : Statement (.unimplFx29 x) := selects_of_eq (wordXKK_mask 0xF x 0x29)
theorem unimplFx33 (x : RegIdx) : Statement (.unimplFx33 x) := selects_of_eq (wordXKK_mask 0xF x 0x33)
theorem unimplFx55 (x : RegIdx) : Statement (.unimplFx55 x) := selects_of_eq (wordXKK_mask 0xF x 0x55)
theorem unimplFx65 (x : RegIdx) : Statement (.unimplFx65 x) := selects_of_eq (wordXKK_mask 0xF x 0x65)
theorem unimplAny (op : Word) : Statement (.unimplAny op) := selects_of_eq (by simp [encode])

end Sys2Proof.Laws.FixedBits
end

