-- ==== Sys2Proof/Laws/Run.lean ====
section
/-! SUPPORT. Laws/Run.lean: runs, one cycle at a time. -/

namespace Sys2Proof.Machine

theorem core_run_zero (s : State) : Host.Core.run Sys2Proof.core 0 s = .next s := rfl

theorem run_succ_of_next (M : Host.Core) {s t : M.State} (h : M.step s = .next t) (k : Nat) :
    M.run (k + 1) s = M.run k t := by
  have e : M.run (k + 1) s = (match M.step s with
    | .next s' => M.run k s'
    | .fault r => .fault r
    | .refused r => .refused r) := rfl
  rw [e, h]

/-- A run of `k + 1` cycles whose first one answers a next state is a run of `k` cycles from there. -/
theorem core_run_succ {s t : State} (h : step s = .next t) (k : Nat) :
    Host.Core.run Sys2Proof.core (k + 1) s = Host.Core.run Sys2Proof.core k t :=
  run_succ_of_next Sys2Proof.core h k

/-- A run of the host's loop that answers a next state took a cycle that did. -/
theorem hostRun_cons {k : Keys} {ks : List Keys} {s t : State} (h : hostRun (k :: ks) s = .next t) :
    ∃ u, step (setKeys k s) = .next u ∧ hostRun ks u = .next t := by
  unfold hostRun at h
  split at h
  · next u hu => exact ⟨u, hu, h⟩
  · exact nomatch h
  · exact nomatch h

end Sys2Proof.Machine
end

