-- ==== Sys2Proof/Tests/Slice0.lean ====
section
/-! SUPPORT. Tests/Slice0.lean: small tests. Every expected value comes from spec/95_test_vectors.md or is
worked out by hand from the rule named; the vector or rule stands in the test's comment. Each test runs
one step. The theorems named `witness_<Statement>` show a state and operands that meet all hypotheses of
the statement of that name, at the boundary of each range where it has several clauses. -/

namespace Sys2Proof.Tests

open Sys2Proof Sys2Proof.Machine Sys2Proof.Safety

/-! ### Helpers -/

/-- The state with a word at its pc. -/
def word (w : Word) (s : State) : State := s.placeWord (w.extractLsb' 8 8) (w.extractLsb' 0 8)

/-- The state with bytes in memory from address `a`. -/
def bytes (a : Nat) (bs : List Byte) (s : State) : State := s.setMemory (Memory.writeBytes s.memory a bs)

/-- The state after reset with pc at `a`. -/
def pcAt (a : Addr) : State := State.reset.setPc a

/-- One step answers a next state that passes the check. -/
def next (s : State) (f : State → Bool) : Bool :=
  match step s with
  | .next t => f t
  | .fault _ => false
  | .refused _ => false

/-- One step stops with a fatal condition that passes the check. -/
def fatal (s : State) (f : FatalCause → State → Bool) : Bool :=
  match step s with
  | .next _ => false
  | .fault (.fatal c u) => f c u
  | .fault (.halted _) => false
  | .refused _ => false

/-- How many pixels are lit in the first `k` rows. -/
def litRows (d : Display) : Nat := (d.toList.map fun row => (row.toList.filter id).length).sum

/-- The keys with key 15 alone down. -/
def key15 : Keys := State.reset.keys.set 15 true

/-! ### Well-formedness -/

/-- The one check of WellFormed refuses the catch-all with a word of another row, implemented or named. -/
theorem test_wf_refuses : (Instr.unimplAny 0x6A02).wf = false ∧ (Instr.unimplAny 0xF10A).wf = false := by decide

/-- It accepts a word of no other row (rule R142). -/
theorem test_wf_accepts : (Instr.unimplAny 0x5AB1).wf = true ∧ (Instr.unimplAny 0x0000).wf = true := by decide

/-! ### Decoding: a word of every constructor, written out bit by bit from rules R72 and R75 -/

theorem test_decode_cls : decodeWord 0b0000000011100000 = .cls := by decide
theorem test_decode_ret : decodeWord 0b0000000011101110 = .ret := by decide
theorem test_decode_jp : decodeWord 0b0001001000110100 = .jp 0x234 := by decide
theorem test_decode_call : decodeWord 0b0010111111111111 = .call 0xFFF := by decide
theorem test_decode_seImm : decodeWord 0b0011101001111111 = .seImm 0xA 0x7F := by decide
theorem test_decode_sneImm : decodeWord 0b0100000000000000 = .sneImm 0x0 0x00 := by decide
theorem test_decode_seReg : decodeWord 0b0101101010110000 = .seReg 0xA 0xB := by decide
theorem test_decode_ldImm : decodeWord 0b0110111100000001 = .ldImm 0xF 0x01 := by decide
theorem test_decode_addImm : decodeWord 0b0111110011111111 = .addImm 0xC 0xFF := by decide
theorem test_decode_sneReg : decodeWord 0b1001000000010000 = .sneReg 0x0 0x1 := by decide
theorem test_decode_ldI : decodeWord 0b1010001011110000 = .ldI 0x2F0 := by decide
theorem test_decode_rnd : decodeWord 0b1100000100001111 = .rnd 0x1 0x0F := by decide
theorem test_decode_drw : decodeWord 0b1101000100100101 = .drw 0x1 0x2 0x5 := by decide
theorem test_decode_skp : decodeWord 0b1110011110011110 = .skp 0x7 := by decide
theorem test_decode_sknp : decodeWord 0b1110011110100001 = .sknp 0x7 := by decide
theorem test_decode_ldVxDT : decodeWord 0b1111100100000111 = .ldVxDT 0x9 := by decide
theorem test_decode_ldDTVx : decodeWord 0b1111100100010101 = .ldDTVx 0x9 := by decide
theorem test_decode_ldSTVx : decodeWord 0b1111100100011000 = .ldSTVx 0x9 := by decide
theorem test_decode_addI : decodeWord 0b1111100100011110 = .addI 0x9 := by decide
theorem test_decode_unimpl8xy : decodeWord 0b1000101010110100 = .unimpl8xy 0xA 0xB 0x4 := by decide
theorem test_decode_unimplBnnn : decodeWord 0b1011000100100011 = .unimplBnnn 0x123 := by decide
theorem test_decode_unimplFx0A : decodeWord 0b1111100100001010 = .unimplFx0A 0x9 := by decide
theorem test_decode_unimplFx29 : decodeWord 0b1111000100101001 = .unimplFx29 0x1 := by decide
theorem test_decode_unimplFx33 : decodeWord 0b1111000100110011 = .unimplFx33 0x1 := by decide
theorem test_decode_unimplFx55 : decodeWord 0b1111000101010101 = .unimplFx55 0x1 := by decide
theorem test_decode_unimplFx65 : decodeWord 0b1111000101100101 = .unimplFx65 0x1 := by decide

/-- V-DEC-20 and V-UNK-10 to V-UNK-19: 0nnn, 5xyN, 9xyN, Exkk, Fxkk. -/
theorem test_decode_unimplAny :
    [0x0000, 0x00E1, 0x0123, 0x5AB1, 0x912F, 0xE79F, 0xE100, 0xF100, 0xF11F, 0xFFFF].all
      (fun w : Word => decodeWord w == .unimplAny w) = true := by decide

/-- The contrast of spec/95_test_vectors.md: 0x10E0 and 0xA0EE are JP and LD I. -/
theorem test_decode_full_value_only :
    decodeWord 0x10E0 = .jp 0x0E0 ∧ decodeWord 0xA0EE = .ldI 0x0EE := by decide

/-- The decoder of bytes reads the high byte first (rule R70) and rejects fewer than two by name. -/
theorem test_decodeBytes :
    decodeBytes [0xA2, 0x34, 0x99] = .ok (.ldI 0x234, [0x99]) ∧ decodeBytes [0xA2] = .error .truncated := ⟨rfl, rfl⟩

/-- The encoder, against the words above (rule R81). -/
theorem test_encode :
    encode (.seImm 0xA 0x7F) = 0x3A7F ∧ encode (.sneReg 0x0 0x1) = 0x9010 ∧ encode (.drw 0x1 0x2 0x5) = 0xD125 ∧
      encode (.sknp 0x7) = 0xE7A1 ∧ encode (.call 0xFFF) = 0x2FFF ∧ encode (.unimplAny 0x5AB1) = 0x5AB1 := by decide

/-- The host's question, and its placement of a word. -/
theorem test_decodeTableWord : decodeTableWord 16 0xD125 = some (.drw 0x1 0x2 0x5) ∧
    decodeTableWord 0 0 = some (.unimplAny 0) := by decide

theorem test_withFetchWord : next (State.reset.withFetchWord 16 0x6A02) (fun t => t.getV 0xA == 0x02) = true := by decide

/-! ### Single steps -/

/-- V-CLS-1: the display is cleared and VF stays 1. -/
theorem test_cls : next (word 0x00E0
    ((State.reset.setV 0xF 1).setDisplay ((State.reset.display.setPixel 3 4 true).setPixel 63 31 true)))
    (fun t => litRows t.display == 0 && t.getV 0xF == 1 && t.pc == 0x202) = true := by decide

/-- V-RET-1: stack [0x202, 0x456], top last in the vector, first in `State.stack`. -/
theorem test_ret : next (word 0x00EE ((pcAt 0x300).setStack [0x456, 0x202]))
    (fun t => t.pc == 0x456 && t.stack == [0x202]) = true := by decide

/-- V-RET-2, V-CYC-11: the empty stack, with delay_timer 9 not ticked. -/
theorem test_ret_underflow : fatal (word 0x00EE (State.reset.setDelayTimer 9))
    (fun c u => c == .stackUnderflow && u.pc == 0x202 && u.delayTimer == 9 && u.stack == [] &&
      u.halted == some .stackUnderflow && u.diag == none) = true := by decide

/-- V-JP-4: an odd target. -/
theorem test_jp : next (word 0x1201 State.reset) (fun t => t.pc == 0x201) = true := by decide

/-- V-CALL-2, V-CALL-3: the pushed address is the one after the call, also at 0xFFC. -/
theorem test_call : next (word 0x2400 ((pcAt 0x300).setStack [0x202]))
    (fun t => t.pc == 0x400 && t.stack == [0x302, 0x202]) = true := by decide
theorem test_call_top : next (word 0x2300 (pcAt 0xFFC)) (fun t => t.pc == 0x300 && t.stack == [0xFFE]) = true := by decide

/-- V-SKP-1, V-SKP-19: 3xnn taken, and taken at the top of memory. -/
theorem test_seImm : next (word 0x332A (State.reset.setV 3 0x2A)) (fun t => t.pc == 0x204) = true := by decide
theorem test_seImm_top : next (word 0x3000 (pcAt 0xFFC)) (fun t => t.pc == 0x000) = true := by decide

/-- V-SKP-3, V-SKP-4: 4xnn taken and not. -/
theorem test_sneImm : next (word 0x432A (State.reset.setV 3 0x2B)) (fun t => t.pc == 0x204) = true := by decide
theorem test_sneImm_not : next (word 0x432A (State.reset.setV 3 0x2A)) (fun t => t.pc == 0x202) = true := by decide

/-- V-SKP-5, V-SKP-6: 5xy0 taken and not. -/
theorem test_seReg : next (word 0x5120 ((State.reset.setV 1 7).setV 2 7)) (fun t => t.pc == 0x204) = true := by decide
theorem test_seReg_not : next (word 0x5120 ((State.reset.setV 1 7).setV 2 8)) (fun t => t.pc == 0x202) = true := by decide

/-- V-SKP-7, V-SKP-14: 9xy0 taken, and never with x = y. -/
theorem test_sneReg : next (word 0x9120 ((State.reset.setV 1 7).setV 2 8)) (fun t => t.pc == 0x204) = true := by decide
theorem test_sneReg_same : next (word 0x9AA0 (State.reset.setV 0xA 5)) (fun t => t.pc == 0x202) = true := by decide

/-- V-SKP-9, V-SKP-17: Ex9E with key 15 down, and with an index of 16. -/
theorem test_skp : next (word 0xE39E ((State.reset.setV 3 0xF).setKeys key15)) (fun t => t.pc == 0x204) = true := by decide
theorem test_skp_range : fatal (word 0xE39E (State.reset.setV 3 0x10))
    (fun c u => c == .keyIndexRange 0x10 && u.pc == 0x202) = true := by decide

/-- V-SKP-11, V-SKP-12: ExA1 with key 0 up, and with key 15 down. -/
theorem test_sknp : next (word 0xE3A1 State.reset) (fun t => t.pc == 0x204) = true := by decide
theorem test_sknp_not : next (word 0xE3A1 ((State.reset.setV 3 0xF).setKeys key15)) (fun t => t.pc == 0x202) = true := by decide

/-- V-LD-2: VF is an ordinary destination. -/
theorem test_ldImm : next (word 0x6FFF State.reset) (fun t => t.getV 0xF == 0xFF && t.getV 0 == 0) = true := by decide

/-- V-ADD-2, V-ADD-5: the sum wraps and records no carry; VF gets the sum, not a flag. -/
theorem test_addImm : next (word 0x7302 (State.reset.setV 3 0xFF)) (fun t => t.getV 3 == 1 && t.getV 0xF == 0) = true := by decide
theorem test_addImm_vf : next (word 0x7F02 (State.reset.setV 0xF 0xFF)) (fun t => t.getV 0xF == 1) = true := by decide

/-- V-CYC-2: big-endian fetch of LD I. -/
theorem test_ldI : next (bytes 0x200 [0xA2, 0x34] State.reset) (fun t => t.I == 0x234 && t.pc == 0x202) = true := by decide

/-- V-RND-2: with nn = 0 the result is 0 whatever the byte. -/
theorem test_rnd_zero : ∃ t, step (word 0xC300 (State.reset.setV 3 0xEE)) = .next t ∧ t.getV 3 = 0 :=
  ⟨_, rfl, BitVec.and_zero⟩

/-- V-RND-1: whatever draw gives 0xB7, masked with 0x0F it leaves 0x07. -/
theorem test_rnd_mask (h : Config.rndByte 0 = 0xB7) :
    ∃ t, exec (.rnd 3 0x0F) (State.reset.setV 3 0xEE) = .next t ∧ t.getV 3 = 0x07 :=
  ⟨_, rfl, by show Config.rndByte 0 &&& 0x0F = 0x07; rw [h]; decide⟩

/-- V-DRW-4: wrapping in both directions: exactly (63,31), (0,31), (63,0). -/
theorem test_drw_wraps : next (word 0xD012 (bytes 0x300 [0xC0, 0x80] (((State.reset.setV 0 63).setV 1 31).setI 0x300)))
    (fun t => t.display.pixel 63 31 && t.display.pixel 0 31 && t.display.pixel 63 0 && litRows t.display == 3 &&
      t.getV 0xF == 0 && t.I == 0x300) = true := by decide

/-- V-DRW-7: a collision in row 0 is not cleared by row 1. -/
theorem test_drw_collision : next (word 0xD002 (bytes 0x300 [0x80, 0x40]
    ((State.reset.setI 0x300).setDisplay (State.reset.display.setPixel 0 0 true))))
    (fun t => !t.display.pixel 0 0 && t.display.pixel 1 1 && litRows t.display == 1 && t.getV 0xF == 1) = true := by decide

/-- V-TMR-1: Fx07 reads the value before the tick. -/
theorem test_ldVxDT : next (word 0xF207 ((State.reset.setDelayTimer 5).setSoundTimer 1))
    (fun t => t.getV 2 == 5 && t.delayTimer == 4 && t.soundTimer == 0) = true := by decide

/-- V-TMR-3, V-TMR-5: Fx15 with the tick of the same cycle. -/
theorem test_ldDTVx : next (word 0xF315 ((State.reset.setV 3 1).setDelayTimer 9)) (fun t => t.delayTimer == 0) = true := by decide
theorem test_ldDTVx_max : next (word 0xF315 (State.reset.setV 3 0xFF)) (fun t => t.delayTimer == 0xFE) = true := by decide

/-- V-TMR-6, V-TMR-7: Fx18 with the tick of the same cycle, on `sound_active`. -/
theorem test_ldSTVx : next (word 0xF318 (State.reset.setV 3 0xFF)) (fun t => t.soundTimer == 0xFE && soundActive t) = true := by decide
theorem test_ldSTVx_one : next (word 0xF318 (State.reset.setV 3 1)) (fun t => t.soundTimer == 0 && !soundActive t) = true := by decide

/-- V-ADDI-2, V-ADDI-3: Fx1E wraps at 12 bits and leaves VF. -/
theorem test_addI : next (word 0xF41E (((State.reset.setI 0xFFF).setV 4 2).setV 0xF 7)) (fun t => t.I == 1 && t.getV 0xF == 7) = true := by decide
theorem test_addI_vf : next (word 0xFF1E ((State.reset.setI 0xFFE).setV 0xF 0xFF)) (fun t => t.I == 0x0FD && t.getV 0xF == 0xFF) = true := by decide

/-- The state of the unimplemented-word vectors. -/
def unk : State :=
  ((((((State.reset.setV 1 1).setV 2 2).setI 0x345).setDelayTimer 2).setSoundTimer 3).setStack [0x222]).setDisplay
    (State.reset.display.setPixel 9 9 true)

/-- What V-UNK-1 to V-UNK-19 expect of one word. -/
def unkOk (w : Word) : Bool := next (word w unk) fun t =>
  t.pc == 0x202 && t.delayTimer == 1 && t.soundTimer == 2 && t.diag == some (.unknownOpcode w) &&
    t.events == [.unknownOpcode w] && t.V.toList == unk.V.toList && t.I == 0x345 && t.stack == [0x222] &&
    litRows t.display == 1 && t.memory == (word w unk).memory

theorem test_unimpl8xy : unkOk 0x8123 = true := by decide
theorem test_unimplBnnn : unkOk 0xB300 = true := by decide
theorem test_unimplFx0A : unkOk 0xF10A = true := by decide
theorem test_unimplFx29 : unkOk 0xF129 = true := by decide
theorem test_unimplFx33 : unkOk 0xF133 = true := by decide
theorem test_unimplFx55 : unkOk 0xF155 = true := by decide
theorem test_unimplFx65 : unkOk 0xF165 = true := by decide
theorem test_unimplAny : unkOk 0x0000 = true ∧ unkOk 0x5121 = true := by decide

/-! ### The cycle and the boundary -/

/-- V-CYC-5: a skipped cycle changes nothing but the diagnostic. -/
theorem test_skipped : next (word 0x6A55 (((pcAt 0xFFE).setDelayTimer 5).setSoundTimer 2))
    (fun t => t.pc == 0xFFE && t.getV 0xA == 0 && t.delayTimer == 5 && t.soundTimer == 2 &&
      t.diag == some (.pcOutOfBounds 0xFFE)) = true := by decide

/-- V-CYC-7: the last fetchable address, an odd one. -/
theorem test_last_odd : next (bytes 0xFFD [0x6A, 0x55] (pcAt 0xFFD)) (fun t => t.getV 0xA == 0x55 && t.pc == 0xFFF) = true := by decide

/-- V-CYC-9: both timers tick. -/
theorem test_tick : next (word 0x6000 ((State.reset.setDelayTimer 0xFF).setSoundTimer 0xFF))
    (fun t => t.delayTimer == 0xFE && t.soundTimer == 0xFE) = true := by decide

/-- V-CYC-10: a halted core has no step. -/
theorem test_halted : step (State.reset.latch .stackUnderflow) = .fault (.halted .stackUnderflow) := rfl

/-- V-LOAD-1: the image of the source's scenario. -/
theorem test_load : (match loadImage [0x6A, 0x02, 0x7A, 0x03] State.reset with
    | .ok t => t.readByte 0x200 == 0x6A && t.readByte 0x203 == 0x03 && t.readByte 0x1FF == 0 && t.readByte 0x204 == 0
    | .error _ => false) = true := by decide

/-- V-LOAD-3: one byte too many. -/
theorem test_load_too_large : loadImage (List.replicate 3585 0) State.reset = .error (.imageTooLarge 3585) := by
  rw [loadImage, if_pos (by rw [List.length_replicate]; decide), List.length_replicate]

/-- Rule R158: the cause codes. -/
theorem test_codes : diagCode none = 0 ∧ diagCode (some (.unknownOpcode 0)) = 1 ∧ diagCode (some (.pcOutOfBounds 0)) = 2 ∧
    haltedCode (some .stackUnderflow) = 3 ∧ haltedCode (some .stackOverflow) = 4 ∧
    haltedCode (some (.keyIndexRange 16)) = 5 ∧ haltedCode (some (.spriteAddressRange 0xFFF 2)) = 6 ∧
    loadCode (.error (.imageTooLarge 3585)) = 7 := by decide

/-! ### Witnesses of the statements' hypotheses -/

theorem reset_inv : Inv State.reset :=
  ⟨rfl, fun _ _ => rfl, rfl, fun _ h => nomatch h⟩

theorem reset_fetches : Fetches State.reset := ⟨rfl, by decide⟩

theorem witness_StepKeepsInvariant : Inv State.reset ∧ ∃ t, step State.reset = .next t := ⟨reset_inv, _, rfl⟩

theorem witness_LoadKeepsInvariant : Inv State.reset ∧ ∃ t, loadImage [0x12, 0x00] State.reset = .ok t :=
  ⟨reset_inv, _, rfl⟩

theorem witness_DecodeEncodeRoundTrip : (Instr.drw 0xF 0xF 0xF).wf = true ∧ (Instr.unimplAny 0xFFFF).wf = true := by decide

/-- A word for each clause. -/
theorem witness_FixedDigitsAreMatchedStrictly :
    ((0x500F#16 &&& 0xF000 = 0x5000) ∧ 0x500F#16 &&& 0x000F ≠ 0) ∧
    ((0x9001#16 &&& 0xF000 = 0x9000) ∧ 0x9001#16 &&& 0x000F ≠ 0) ∧
    ((0x00E1#16 &&& 0xF000 = 0x0000) ∧ 0x00E1#16 ≠ 0x00E0 ∧ 0x00E1#16 ≠ 0x00EE) ∧
    ((0xE09F#16 &&& 0xF000 = 0xE000) ∧ 0xE09F#16 &&& 0x00FF ≠ 0x9E ∧ 0xE09F#16 &&& 0x00FF ≠ 0xA1) ∧
    ((0xF008#16 &&& 0xF000 = 0xF000) ∧ 0xF008#16 &&& 0x00FF ≠ 0x07 ∧ 0xF008#16 &&& 0x00FF ≠ 0x15 ∧
      0xF008#16 &&& 0x00FF ≠ 0x18 ∧ 0xF008#16 &&& 0x00FF ≠ 0x1E) := by decide

/-- At the last pc that fetches. -/
theorem witness_StepRunsTheDecodedInstruction :
    let s := bytes 0xFFD [0x6A, 0x55] (pcAt 0xFFD)
    s.halted = none ∧ s.pc.toNat < 0xFFE ∧ s.readByte s.pc = 0x6A ∧ s.readByte (s.pc + 1) = 0x55 ∧
      decodeWord (BitVec.ofNat 16 ((0x6A#8).toNat * 256 + (0x55#8).toNat)) = .ldImm 0xA 0x55 := by decide

theorem witness_HaltedCoreHasNoStep :
    (State.reset.latch .stackUnderflow).halted = some .stackUnderflow := rfl

/-- At the first pc that does not fetch, and the last. -/
theorem witness_OutOfBoundsCyclesAreSkippedForEver :
    ((pcAt 0xFFE).halted = none ∧ 0xFFE ≤ (pcAt 0xFFE).pc.toNat) ∧
      ((pcAt 0xFFF).halted = none ∧ 0xFFE ≤ (pcAt 0xFFF).pc.toNat) := by decide

/-- A state for each clause: a fetched cycle, a skipped one, a fatal one. -/
theorem witness_TimersTickOncePerFetchedCycle :
    (Fetches State.reset ∧ ∃ u, exec (current State.reset) State.reset.startCycle = .next u) ∧
      ((pcAt 0xFFE).halted = none ∧ 0xFFE ≤ (pcAt 0xFFE).pc.toNat) ∧
      (∃ c u, step (word 0x00EE State.reset) = .fault (.fatal c u)) :=
  ⟨⟨reset_fetches, _, rfl⟩, by decide, _, _, rfl⟩

theorem witness_FatalConditionsArePrecise : ∃ c u, step (word 0x00EE State.reset) = .fault (.fatal c u) := ⟨_, _, rfl⟩

/-- A state for each case of rule R160. -/
theorem witness_ChecksAreMadeInOrder :
    (State.reset.latch .stackUnderflow).halted ≠ none ∧ ¬((pcAt 0xFFE).pc.toNat < 0xFFE) ∧
      (current State.reset).implemented = false ∧
      (current (word 0x00EE State.reset)).implemented = true ∧
      fatalCondition (word 0x00EE State.reset) (current (word 0x00EE State.reset)) = some .stackUnderflow ∧
      (current (word 0x00E0 State.reset)).implemented = true ∧
      fatalCondition (word 0x00E0 State.reset) (current (word 0x00E0 State.reset)) = none := by decide

theorem witness_OneDiagnosticPerCycle :
    (∃ t, step State.reset = .next t) ∧ (∃ t, step (pcAt 0xFFE) = .next t) ∧
      (∃ t, step (word 0x00E0 State.reset) = .next t) := ⟨⟨_, rfl⟩, ⟨_, rfl⟩, _, rfl⟩

theorem witness_RunningCoreAlwaysSteps : State.reset.halted = none := rfl

theorem witness_SequentialInstructionsAdvanceByTwo :
    Fetches (bytes 0xFFD [0x6A, 0x55] (pcAt 0xFFD)) ∧
      (∃ t, step (bytes 0xFFD [0x6A, 0x55] (pcAt 0xFFD)) = .next t) ∧
      Part.pc ∉ writes (current (bytes 0xFFD [0x6A, 0x55] (pcAt 0xFFD))) :=
  ⟨⟨rfl, by decide⟩, ⟨_, rfl⟩, by decide⟩

theorem witness_FrameOfEveryInstruction :
    (∃ t, exec .cls State.reset = .next t) ∧ Fetches State.reset ∧ ∃ t, step State.reset = .next t :=
  ⟨⟨_, rfl⟩, reset_fetches, _, rfl⟩

/-- Two states that differ in what 6xnn writes and agree on what it reads (nothing), and two that differ in
a register and agree on what a skip reads, and on the pc that it keeps where it is not taken. -/
theorem witness_EffectDependsOnlyOnReads :
    (State.reset.getV 4 ≠ (State.reset.setV 4 9).getV 4 ∧
      ∀ p ∈ reads State.reset (.ldImm 4 1) ++ keepsOrExtends (.ldImm 4 1), p.same State.reset (State.reset.setV 4 9)) ∧
    (State.reset.getV 4 ≠ (State.reset.setV 4 9).getV 4 ∧
      ∀ p ∈ reads State.reset (.seImm 3 1) ++ keepsOrExtends (.seImm 3 1), p.same State.reset (State.reset.setV 4 9)) := by
  refine ⟨⟨by decide, fun p hp => nomatch hp⟩, by decide, fun p hp => ?_⟩
  simp only [reads, keepsOrExtends, List.cons_append, List.nil_append, List.mem_cons, List.not_mem_nil, or_false] at hp
  rcases hp with rfl | rfl <;> rfl

/-- Each fatal condition at its boundary, and its neighbour that completes. -/
theorem witness_InstructionsCompleteUnlessFatal :
    fatalCondition State.reset .ret = some .stackUnderflow ∧ fatalCondition (State.reset.setStack [0x202]) .ret = none ∧
      fatalCondition (State.reset.setV 3 16) (.skp 3) = some (.keyIndexRange 16) ∧
      fatalCondition (State.reset.setV 3 15) (.skp 3) = none ∧
      fatalCondition (State.reset.setI 0xFFF) (.drw 0 1 2) = some (.spriteAddressRange 0xFFF 2) ∧
      fatalCondition (State.reset.setI 0xFFF) (.drw 0 1 1) = none ∧
      fatalCondition (State.reset.setI 0xFF1) (.drw 0 1 15) = none ∧
      fatalCondition (State.reset.setI 0xFFF) (.drw 0 1 0) = none := by decide

theorem witness_MemoryIsConstantAfterLoad :
    (∃ t, step State.reset = .next t) ∧ ∃ t, hostRun [key15, State.reset.keys] State.reset = .next t :=
  ⟨⟨_, rfl⟩, _, rfl⟩

theorem witness_StackChangesByOneEntry :
    (∃ t, step (word 0x2300 State.reset) = .next t) ∧
      (∃ t, step (word 0x00EE (State.reset.setStack [0x456])) = .next t) ∧ ∃ t, step State.reset = .next t :=
  ⟨⟨_, rfl⟩, ⟨_, rfl⟩, _, rfl⟩

theorem witness_OnlyDrawWritesVFImplicitly :
    ∃ t, exec (.ldImm 0xF 1) State.reset = .next t ∧ t.getV 0xF ≠ State.reset.getV 0xF := ⟨_, rfl, by decide⟩

/-- A word for each pattern of rule R75 that a statement's encoding clause names. -/
theorem witness_Encodes :
    (0x00E0#16 &&& 0xFFFF = 0x00E0) ∧ (0x00EE#16 &&& 0xFFFF = 0x00EE) ∧ (0x1FFF#16 &&& 0xF000 = 0x1000) ∧
    (0x2FFF#16 &&& 0xF000 = 0x2000) ∧ (0x3FFF#16 &&& 0xF000 = 0x3000) ∧ (0x4FFF#16 &&& 0xF000 = 0x4000) ∧
    (0x5FF0#16 &&& 0xF00F = 0x5000) ∧ (0x6FFF#16 &&& 0xF000 = 0x6000) ∧ (0x7FFF#16 &&& 0xF000 = 0x7000) ∧
    (0x9FF0#16 &&& 0xF00F = 0x9000) ∧ (0xAFFF#16 &&& 0xF000 = 0xA000) ∧ (0xCFFF#16 &&& 0xF000 = 0xC000) ∧
    (0xDFFF#16 &&& 0xF000 = 0xD000) ∧ (0xEF9E#16 &&& 0xF0FF = 0xE09E) ∧ (0xEFA1#16 &&& 0xF0FF = 0xE0A1) ∧
    (0xFF07#16 &&& 0xF0FF = 0xF007) ∧ (0xFF15#16 &&& 0xF0FF = 0xF015) ∧ (0xFF18#16 &&& 0xF0FF = 0xF018) ∧
    (0xFF1E#16 &&& 0xF0FF = 0xF01E) := by decide

/-- The dot of the sprites below: one row 0x80 at 0x300, where I points. -/
def dot : State := bytes 0x300 [0x80] (State.reset.setI 0x300)

/-- A sprite that collides, and one that does not. -/
theorem witness_DrwXorsTheSprite_hit :
    SpriteFits dot 1 ∧
      (∃ px py, spriteCovers (dot.setDisplay (Display.clear.setPixel 0 0 true)) 0 1 1 px py ∧
        (dot.setDisplay (Display.clear.setPixel 0 0 true)).display.pixel px py = true) ∧
      ¬ ∃ px py, spriteCovers dot 0 1 1 px py ∧ dot.display.pixel px py = true :=
  ⟨by unfold SpriteFits; decide, ⟨0, 0, ⟨0, 0, by decide⟩, by decide⟩,
    fun ⟨px, py, _, h⟩ => (show ∀ px py, dot.display.pixel px py ≠ true by decide) px py h⟩

/-- The last sprite that fits, n = 0 at the last address, and the first that does not fit. -/
theorem witness_DrwXorsTheSprite :
    SpriteFits (State.reset.setI 0xFF1) 15 ∧ SpriteFits (State.reset.setI 0xFFF) 0 ∧
      ¬ SpriteFits (State.reset.setI 0xFFF) 2 := by
  unfold SpriteFits; decide

/-- V-DRW-14 and V-DRW-11: the first sprite that does not fit, and one that does. -/
theorem witness_DrwStopsBeyondMemory :
    (0 < (3#4).toNat ∧ 0xFFF < (State.reset.setI 0xFFE).I.toNat + (3#4).toNat - 1) ∧
      ¬(0 < (1#4).toNat ∧ 0xFFF < (State.reset.setI 0xFFF).I.toNat + (1#4).toNat - 1) := by decide

/-- V-DRW-15: x = F, with another register that holds VF's value. -/
theorem witness_DrwReadsItsOperandsFirst :
    SpriteFits (((State.reset.setV 0xF 3).setV 2 3).setI 0x300) 1 ∧
      (((State.reset.setV 0xF 3).setV 2 3).setI 0x300).getV 2 = (((State.reset.setV 0xF 3).setV 2 3).setI 0x300).getV 0xF ∧
      (((State.reset.setV 0xF 3).setV 2 3).setI 0x300).getV 0 = (((State.reset.setV 0xF 3).setV 2 3).setI 0x300).getV 0 := by
  unfold SpriteFits; decide

/-- S3: a sprite with a set bit on a clear display. -/
theorem witness_DrawingTwiceRestoresTheDisplay :
    SpriteFits (bytes 0x300 [0x80] (State.reset.setI 0x300)) 1 ∧ (0 : RegIdx) ≠ 0xF ∧ (1 : RegIdx) ≠ 0xF ∧
      (∀ px py, (bytes 0x300 [0x80] (State.reset.setI 0x300)).display.pixel px py = false) ∧
      ∃ px py, spriteCovers (bytes 0x300 [0x80] (State.reset.setI 0x300)) 0 1 1 px py :=
  ⟨by unfold SpriteFits; decide, by decide, by decide, by decide, 0, 0, 0, 0, by decide⟩

theorem witness_RetPopsOrUnderflows :
    (State.reset.setStack [0xFFF]).stack = 0xFFF :: [] ∧ State.reset.stack = [] := by decide

theorem witness_CallThenReturnComesBack :
    Fetches (word 0x2300 State.reset) ∧ current (word 0x2300 State.reset) = .call 0x300 ∧
      Fetches (word 0x00EE ((pcAt 0x300).setStack [0x202])) ∧
      current (word 0x00EE ((pcAt 0x300).setStack [0x202])) = .ret ∧
      ∃ t, step (word 0x2300 State.reset) = .next t ∧ (word 0x00EE ((pcAt 0x300).setStack [0x202])).stack = t.stack :=
  ⟨⟨rfl, by decide⟩, by decide, ⟨rfl, by decide⟩, by decide, _, rfl, by decide⟩

/-- A taken skip and one that is not. -/
theorem witness_SkipsAdvanceByFourOrTwo :
    (Fetches (word 0x3000 State.reset) ∧ skipCondition (word 0x3000 State.reset) (current (word 0x3000 State.reset)) = some true) ∧
      (Fetches (word 0x4000 State.reset) ∧ skipCondition (word 0x4000 State.reset) (current (word 0x4000 State.reset)) = some false) :=
  ⟨⟨⟨rfl, by decide⟩, by decide⟩, ⟨rfl, by decide⟩, by decide⟩

theorem witness_SeRegSkipsIfEqual : (0x5121#16 &&& 0xF000 = 0x5000) ∧ 0x5121#16 &&& 0x000F ≠ 0 := by decide

theorem witness_SneRegSkipsIfDifferent : (0x912F#16 &&& 0xF000 = 0x9000) ∧ 0x912F#16 &&& 0x000F ≠ 0 := by decide

/-- The last index that names a key, and the first that names none. -/
theorem witness_SkpSkipsIfKeyDown :
    ((State.reset.setV 3 15).getV 3).toNat < 16 ∧ 16 ≤ ((State.reset.setV 3 16).getV 3).toNat := by decide

theorem witness_SknpSkipsIfKeyUp :
    ((State.reset.setV 3 0).getV 3).toNat < 16 ∧ 16 ≤ ((State.reset.setV 3 0xFF).getV 3).toNat := by decide

theorem witness_KeyIndexOutOfRangeIsFatal :
    Fetches (word 0xE39E (State.reset.setV 3 16)) ∧ current (word 0xE39E (State.reset.setV 3 16)) = .skp 3 ∧
      16 ≤ ((word 0xE39E (State.reset.setV 3 16)).getV 3).toNat :=
  ⟨⟨rfl, by decide⟩, by decide, by decide⟩

/-- A word placed above the reserved area keeps the invariant. -/
theorem witness_SkipAtTheTopOfMemoryWraps_inv : Inv (word 0x3000 (pcAt 0xFFC)) ∧ Inv (word 0x3000 (pcAt 0xFFD)) := by
  refine ⟨⟨by decide, fun a ha => ?_, rfl, fun _ h => nomatch h⟩, ⟨by decide, fun a ha => ?_, rfl, fun _ h => nomatch h⟩⟩
  · exact if_neg (show a.toNat ≠ 0xFFC by omega)
  · exact if_neg (show a.toNat ≠ 0xFFD by omega)

/-- V-SKP-19 and V-SKP-20. -/
theorem witness_SkipAtTheTopOfMemoryWraps :
    (Fetches (word 0x3000 (pcAt 0xFFC)) ∧ (word 0x3000 (pcAt 0xFFC)).pc = 0xFFC ∧
      skipCondition (word 0x3000 (pcAt 0xFFC)) (current (word 0x3000 (pcAt 0xFFC))) = some true) ∧
    (Fetches (word 0x3000 (pcAt 0xFFD)) ∧ (word 0x3000 (pcAt 0xFFD)).pc = 0xFFD ∧
      skipCondition (word 0x3000 (pcAt 0xFFD)) (current (word 0x3000 (pcAt 0xFFD))) = some true) ∧
    (∃ t, step (word 0x1200 (pcAt 0xFFC)) = .next t ∧ t.pc.toNat < (word 0x1200 (pcAt 0xFFC)).pc.toNat) :=
  ⟨⟨⟨rfl, by decide⟩, by decide, by decide⟩, ⟨⟨rfl, by decide⟩, by decide, by decide⟩, _, rfl, by decide⟩

theorem witness_RndMasksTheRandomByte : (0x00#8 = 0x00) ∧ (0xFF#8 = 0xFF) := by decide

theorem witness_Fx07ReadsTheDelayTimer :
    Fetches (word 0xF207 State.reset) ∧ current (word 0xF207 State.reset) = .ldVxDT 2 := ⟨⟨rfl, by decide⟩, by decide⟩

theorem witness_Fx15SetsTheDelayTimer :
    Fetches (word 0xF315 State.reset) ∧ current (word 0xF315 State.reset) = .ldDTVx 3 := ⟨⟨rfl, by decide⟩, by decide⟩

theorem witness_Fx18SetsTheSoundTimer :
    Fetches (word 0xF318 State.reset) ∧ current (word 0xF318 State.reset) = .ldSTVx 3 := ⟨⟨rfl, by decide⟩, by decide⟩

theorem witness_UnimplementedInstructionsOnlyWarn :
    (Instr.unimpl8xy 1 2 3).implemented = false ∧ (Instr.unimplAny 0xFFFF).implemented = false := by decide

theorem witness_FallbackCycleAdvancesTicksAndWarns :
    Fetches (word 0x8123 State.reset) ∧
      ∀ r ∈ implementedRows, fetched (word 0x8123 State.reset) &&& r.mask ≠ r.pat := ⟨⟨rfl, by decide⟩, by decide⟩

/-- A word of each named group. -/
theorem witness_NamedGroupsExecuteTheFallback :
    0x8FFF#16 &&& 0xF000 = 0x8000 ∧ 0xBFFF#16 &&& 0xF000 = 0xB000 ∧ 0xFF0A#16 &&& 0xF0FF = 0xF00A ∧
      0xFF29#16 &&& 0xF0FF = 0xF029 ∧ 0xFF33#16 &&& 0xF0FF = 0xF033 ∧ 0xFF55#16 &&& 0xF0FF = 0xF055 ∧
      0xFF65#16 &&& 0xF0FF = 0xF065 := by decide

theorem witness_ZeroedMemoryNeverStops : State.reset.memory = [] ∧ State.reset.halted = none := by decide

/-- The largest image that fits, and the smallest that does not. -/
theorem witness_LoadImagePlacesTheBytes :
    Memory.wf State.reset.memory = true ∧ (List.replicate 3584 (0 : Byte)).length ≤ 3584 ∧
      3584 < (List.replicate 3585 (0 : Byte)).length :=
  ⟨reset_inv.memWf, Nat.le_of_eq List.length_replicate, by rw [List.length_replicate]; decide⟩

/-- Each way to leave the phase in which a load is possible. -/
theorem witness_TheImageIsLoadedOnce :
    (∃ l, Life.start.move (.loadImage [0x12, 0x00]) = .moved l) ∧ (∃ l, Life.start.move .cycle = .moved l) ∧
      (∃ l, (⟨.running, State.reset⟩ : Life).move (.setKeys key15) = .moved l) := ⟨⟨_, rfl⟩, ⟨_, rfl⟩, _, rfl⟩

theorem witness_HostMovesChangeKeysAndMemoryOnly :
    (∃ l, Life.start.move (.loadImage [0x12, 0x00]) = .moved l) ∧
      (∃ l, (⟨.running, State.reset⟩ : Life).move (.setKeys key15) = .moved l) := ⟨⟨_, rfl⟩, _, rfl⟩

/-- V-JP-2: a jump to itself with both timers 0. -/
theorem witness_IdleMachineStaysIdle : Idle (word 0x1200 State.reset) :=
  ⟨⟨rfl, by decide⟩, by decide, by decide, by decide⟩

end Sys2Proof.Tests
end

/-! SUPPORT. Proofs of the family 10_state.md. Frames: what one state operation leaves unchanged
(`UnchangedBut`), how frames compose, and from them, once, what an instruction that completes leaves
(rule R39); then what a cycle, a load and a host move leave. -/

namespace Sys2Proof.Safety

open Sys2Proof.Machine

/-! ### Frames in general -/

theorem Part.same_trans {p : Part} {s t u : State} (h : p.same s t) (h' : p.same t u) : p.same s u := by
  cases p <;> exact Eq.trans h' h

/-- Frames compose: outside both lists nothing changes. -/
theorem UnchangedBut.trans {ps qs : List Part} {s t u : State} (h : UnchangedBut ps s t)
    (h' : UnchangedBut qs t u) : UnchangedBut (ps ++ qs) s u := fun p hp =>
  Part.same_trans (h p fun hm => hp (List.mem_append_left qs hm))
    (h' p fun hm => hp (List.mem_append_right ps hm))

/-- A frame with more parts listed says less. -/
theorem UnchangedBut.weaken {ps qs : List Part} {s t : State} (h : UnchangedBut ps s t)
    (hsub : ∀ p ∈ ps, p ∈ qs) : UnchangedBut qs s t := fun p hp => h p fun hm => hp (hsub p hm)

/-! ### The frame of each state operation -/

theorem setV_frame (s : State) (x : RegIdx) (v : Byte) : UnchangedBut [.v x] s (s.setV x v) := by
  intro p hp
  cases p with
  | v r => exact s.getV_setV_other v (by simpa using hp)
  | _ => exact rfl

theorem setI_frame (s : State) (a : Addr) : UnchangedBut [.i] s (s.setI a) := by
  intro p hp
  cases p with
  | i => simp at hp
  | _ => exact rfl

theorem setPc_frame (s : State) (a : Addr) : UnchangedBut [.pc] s (s.setPc a) := by
  intro p hp
  cases p with
  | pc => simp at hp
  | _ => exact rfl

theorem setStack_frame (s : State) (l : List Addr) : UnchangedBut [.stack] s (s.setStack l) := by
  intro p hp
  cases p with
  | stack => simp at hp
  | _ => exact rfl

theorem setDisplay_frame (s : State) (d : Display) : UnchangedBut [.display] s (s.setDisplay d) := by
  intro p hp
  cases p with
  | display => simp at hp
  | _ => exact rfl

theorem setKeys_frame (s : State) (k : Keys) : UnchangedBut [.keys] s (s.setKeys k) := by
  intro p hp
  cases p with
  | keys => simp at hp
  | _ => exact rfl

theorem setDelayTimer_frame (s : State) (v : Byte) : UnchangedBut [.delayTimer] s (s.setDelayTimer v) := by
  intro p hp
  cases p with
  | delayTimer => simp at hp
  | _ => exact rfl

theorem setSoundTimer_frame (s : State) (v : Byte) : UnchangedBut [.soundTimer] s (s.setSoundTimer v) := by
  intro p hp
  cases p with
  | soundTimer => simp at hp
  | _ => exact rfl

theorem nextDraw_frame (s : State) : UnchangedBut [.draws] s s.nextDraw := by
  intro p hp
  cases p with
  | draws => simp at hp
  | _ => exact rfl

theorem clearDiag_frame (s : State) : UnchangedBut [.diag] s s.clearDiag := by
  intro p hp
  cases p with
  | diag => simp at hp
  | _ => exact rfl

theorem emit_frame (s : State) (d : Diag) : UnchangedBut [.diag, .events] s (s.emit d) := by
  intro p hp
  cases p with
  | diag => simp at hp
  | events => simp at hp
  | _ => exact rfl

theorem skipIf_frame (c : Bool) (s : State) : UnchangedBut [.pc] s (skipIf c s) := by
  rw [skipIf_eq]
  exact setPc_frame s _

theorem tick_frame (s : State) : UnchangedBut [.delayTimer, .soundTimer] s s.tick :=
  (setDelayTimer_frame s _).trans (setSoundTimer_frame _ _)

theorem startCycle_frame (s : State) : UnchangedBut [.diag, .pc] s s.startCycle :=
  (clearDiag_frame s).trans (setPc_frame _ _)

/-! ### What an instruction that completes leaves -/

/-- The states an instruction can complete with from `s`, one case per kind of effect. Where several
instructions share the effect, the case says which parts such an instruction writes. -/
inductive Completes (s : State) : Instr → State → Prop where
  /-- 00E0 (rule R105). -/
  | clear : Completes s .cls (s.setDisplay Display.clear)
  /-- 00EE with an entry on the stack (rule R110). -/
  | popped {a : Addr} {l : List Addr} (h : s.stack = a :: l) : Completes s .ret ((s.setStack l).setPc a)
  /-- 1nnn (rule R111). -/
  | jumped (nnn : Addr) : Completes s (.jp nnn) (s.setPc nnn)
  /-- 2nnn (rule R112). -/
  | called (nnn : Addr) : Completes s (.call nnn) ((s.push s.pc).setPc nnn)
  /-- The six skips, taken or not (rule R115). -/
  | skip {i : Instr} (hw : writes i = [.pc]) (c : Bool) : Completes s i (skipIf c s)
  /-- 6xnn, 7xnn and Fx07: one register (rules R125, R126, R135). -/
  | register {i : Instr} {x : RegIdx} (hw : writes i = [.v x]) (v : Byte) : Completes s i (s.setV x v)
  /-- Cxnn (rules R128, R130). -/
  | random (x : RegIdx) (nn : Byte) : Completes s (.rnd x nn) ((s.setV x (s.rnd &&& nn)).nextDraw)
  /-- Annn and Fx1E: the index register (rules R127, R129). -/
  | index {i : Instr} (hw : writes i = [.i]) (a : Addr) : Completes s i (s.setI a)
  /-- Dxyn (rule R106). -/
  | drew (x y : RegIdx) (n : Nibble) (d : Display) (hit : Bool) :
      Completes s (.drw x y n) ((s.setDisplay d).setVF hit)
  /-- Fx15 (rule R136). -/
  | delay (x : RegIdx) : Completes s (.ldDTVx x) (s.setDelayTimer (s.getV x))
  /-- Fx18 (rule R137). -/
  | sound (x : RegIdx) : Completes s (.ldSTVx x) (s.setSoundTimer (s.getV x))
  /-- The fallback of the unimplemented words (rule R140). -/
  | warned {i : Instr} (hw : writes i = [.diag, .events]) (d : Diag) : Completes s i (s.emit d)

/-- SKP and SKNP complete only as a skip: a key index out of range stops them (rules R120 to R122). -/
theorem keySkip_next {x : RegIdx} {s t : State} (h : exec (.skp x) s = .next t ∨ exec (.sknp x) s = .next t) :
    ∃ c, t = skipIf c s := by
  rcases Nat.lt_or_ge (s.getV x).toNat 16 with hk | hk
  · rw [exec_skp_in hk, exec_sknp_in hk] at h
    rcases h with h | h <;> exact ⟨_, (Host.Outcome.next.inj h).symm⟩
  · rw [exec_skp_out hk, exec_sknp_out hk] at h
    rcases h with h | h <;> exact nomatch h

/-- RET completes only by popping an entry (rule R110). -/
theorem exec_ret_next {s t : State} (h : exec .ret s = .next t) :
    ∃ a l, s.stack = a :: l ∧ t = (s.setStack l).setPc a := by
  cases hs : s.stack with
  | nil =>
    rw [exec_ret_nil hs] at h
    exact nomatch h
  | cons a l =>
    rw [exec_ret_cons hs] at h
    exact ⟨a, l, rfl, (Host.Outcome.next.inj h).symm⟩

/-- DRW completes only with the sprite drawn (rules R106, R107). -/
theorem exec_drw_next {x y : RegIdx} {n : Nibble} {s t : State} (h : exec (.drw x y n) s = .next t) :
    t = (s.setDisplay (drawn x y n s).display).setVF (drawn x y n s).hit := by
  by_cases ho : 0 < n.toNat ∧ 0xFFF < s.I.toNat + n.toNat - 1
  · rw [exec_drw_out x y ho] at h
    exact nomatch h
  · rw [exec_drw_in x y ho] at h
    exact (Host.Outcome.next.inj h).symm

/-- Each instruction that answers a next state does so by the effect of its kind. -/
theorem exec_completes {i : Instr} {s t : State} (h : exec i s = .next t) : Completes s i t := by
  cases i with
  | ret => obtain ⟨a, l, hs, rfl⟩ := exec_ret_next h; exact .popped hs
  | drw x y n => obtain rfl := exec_drw_next h; exact .drew x y n _ _
  | skp x => obtain ⟨c, rfl⟩ := keySkip_next (.inl h); exact .skip rfl c
  | sknp x => obtain ⟨c, rfl⟩ := keySkip_next (.inr h); exact .skip rfl c
  | cls => cases h; exact .clear
  | jp nnn => cases h; exact .jumped nnn
  | call nnn => cases h; exact .called nnn
  | seImm | sneImm | seReg | sneReg => cases h; exact .skip rfl _
  | ldImm | addImm | ldVxDT => cases h; exact .register rfl _
  | rnd x nn => cases h; exact .random x nn
  | ldI | addI => cases h; exact .index rfl _
  | ldDTVx x => cases h; exact .delay x
  | ldSTVx x => cases h; exact .sound x
  | unimpl8xy | unimplBnnn | unimplFx0A | unimplFx29 | unimplFx33 | unimplFx55 | unimplFx65 | unimplAny =>
    cases h; exact .warned rfl _

/-- An instruction changes nothing outside its row of the writes column (rule R39). -/
theorem exec_frame {i : Instr} {s t : State} (h : exec i s = .next t) : UnchangedBut (writes i) s t := by
  cases exec_completes h with
  | clear => exact setDisplay_frame s _
  | popped _ => exact (setStack_frame s _).trans (setPc_frame _ _)
  | jumped nnn => exact setPc_frame s nnn
  | called nnn => exact (setStack_frame s _).trans (setPc_frame _ nnn)
  | skip hw c => rw [hw]; exact skipIf_frame c s
  | register hw v => rw [hw]; exact setV_frame s _ v
  | random x nn => exact (setV_frame s x _).trans (nextDraw_frame _)
  | index hw a => rw [hw]; exact setI_frame s a
  | drew _ _ _ d hit => exact (setDisplay_frame s d).trans (setV_frame _ regF _)
  | delay x => exact setDelayTimer_frame s _
  | sound x => exact setSoundTimer_frame s _
  | warned hw d => rw [hw]; exact emit_frame s d

/-- No instruction writes memory, as data (rule R56). -/
theorem exec_memory {i : Instr} {s t : State} (h : exec i s = .next t) : t.memory = s.memory := by
  cases exec_completes h with
  | skip _ c => rw [skipIf_eq, State.setPc_memory]
  | _ => rfl

/-- An instruction leaves the outputs as they are, or emits one diagnostic (rule R97). -/
theorem exec_diag_cases {i : Instr} {s t : State} (h : exec i s = .next t) :
    (t.diag = s.diag ∧ t.events = s.events) ∨ ∃ d, t.diag = some d ∧ t.events = s.events ++ [d] := by
  cases exec_completes h with
  | warned _ d => exact .inr ⟨d, rfl, rfl⟩
  | skip _ c => rw [skipIf_eq]; exact .inl ⟨rfl, rfl⟩
  | _ => exact .inl ⟨rfl, rfl⟩

/-! ### The parts that occur in the writes column -/

theorem halted_not_mem_writes (i : Instr) : Part.halted ∉ writes i := by cases i <;> simp [writes]

/-- Only 00EE and 2nnn write the stack (rule R39). -/
theorem of_stack_mem_writes {i : Instr} (h : Part.stack ∈ writes i) : i = .ret ∨ ∃ nnn, i = .call nnn := by
  cases i with
  | ret => exact .inl rfl
  | call nnn => exact .inr ⟨nnn, rfl⟩
  | _ => simp [writes] at h

/-- A register is written by the instruction that names it as its destination, or it is VF and written by
Dxyn (rules R23, R39). -/
theorem of_v_mem_writes {i : Instr} {r : RegIdx} (h : Part.v r ∈ writes i) :
    (∃ x y n, i = .drw x y n) ∨ destination i = some r := by
  cases i with
  | drw x y n => exact .inl ⟨x, y, n, rfl⟩
  | ldImm | addImm | rnd | ldVxDT => exact .inr (by simp_all [writes, destination])
  | _ => simp [writes] at h

/-! ### The invariant through the phases of a cycle -/

theorem startCycle_inv {s : State} (h : Inv s) : Inv s.startCycle :=
  ⟨h.memWf, h.lowZero, h.notHalted, fun _ hd => nomatch hd⟩

theorem tick_inv {s : State} (h : Inv s) : Inv s.tick := ⟨h.memWf, h.lowZero, h.notHalted, h.lastDiag⟩

theorem emit_inv {s : State} (h : Inv s) (d : Diag) : Inv (s.emit d) :=
  ⟨h.memWf, h.lowZero, h.notHalted, fun d' hd => by
    obtain rfl : d = d' := Option.some.inj hd
    exact List.getLast?_concat⟩

theorem exec_inv {i : Instr} {s t : State} (h : Inv s) (ht : exec i s = .next t) : Inv t where
  memWf := exec_memory ht ▸ h.memWf
  lowZero a ha := by rw [State.readByte, exec_memory ht]; exact h.lowZero a ha
  notHalted := (exec_frame ht .halted (halted_not_mem_writes i)).trans h.notHalted
  lastDiag d hd := by
    rcases exec_diag_cases ht with ⟨hdiag, hev⟩ | ⟨d', hdiag, hev⟩
    · rw [hev]; exact h.lastDiag d (hdiag ▸ hd)
    · obtain rfl : d' = d := Option.some.inj (hdiag.symm.trans hd)
      rw [hev]; exact List.getLast?_concat

/-! ### What a fetched cycle leaves -/

/-- A fetched cycle that answers a next state executed the current instruction and ticked. -/
theorem step_next_fetched {s t : State} (hf : Fetches s) (h : step s = .next t) :
    ∃ u, exec (current s) s.startCycle = .next u ∧ t = u.tick := by
  obtain ⟨-, ⟨hpc, -⟩ | ⟨-, hu⟩⟩ := step_next_cases h
  · exact absurd hf.2 (by omega)
  · exact hu

/-- The parts that the phases around an instruction write. -/
theorem cycle_parts {p : Part} (h : p ∈ [Part.diag, .pc] ∨ p ∈ [Part.delayTimer, .soundTimer]) :
    p ∈ [Part.pc, .delayTimer, .soundTimer, .diag] := by
  simp only [List.mem_cons, List.not_mem_nil, or_false] at h
  rcases h with (rfl | rfl) | (rfl | rfl) <;> decide

/-- A cycle changes beside the writes of its instruction only pc, the timers and the diagnostic. -/
theorem step_frame {s t : State} (hf : Fetches s) (h : step s = .next t) :
    UnchangedBut (writes (current s) ++ [.pc, .delayTimer, .soundTimer, .diag]) s t := by
  obtain ⟨u, hu, rfl⟩ := step_next_fetched hf h
  refine (((startCycle_frame s).trans (exec_frame hu)).trans (tick_frame u)).weaken fun p hp => ?_
  rcases List.mem_append.1 hp with hp | hp
  · rcases List.mem_append.1 hp with hp | hp
    · exact List.mem_append_right _ (cycle_parts (.inl hp))
    · exact List.mem_append_left _ hp
  · exact List.mem_append_right _ (cycle_parts (.inr hp))

/-- The fetch advance does not wrap (rule R94). -/
theorem advance_toNat {a : Addr} (h : a.toNat < 0xFFE) : (a + 2).toNat = a.toNat + 2 :=
  BitVec.toNat_add_of_lt (show a.toNat + 2 < 2 ^ 12 by omega)

/-! ### The answers of an instruction in two states -/

theorem sameEffect_one {p : Part} {t t' : State} : SameEffect [p] (.next t) (.next t') ↔ p.same t t' :=
  List.forall_mem_singleton

theorem sameEffect_two {p q : Part} {t t' : State} :
    SameEffect [p, q] (.next t) (.next t') ↔ p.same t t' ∧ q.same t t' := by
  simp [SameEffect]

/-- The same condition and the same pc before: the same pc after, taken or not. -/
theorem skipIf_sameEffect {c c' : Bool} {s s' : State} (hc : c' = c) (hpc : s'.pc = s.pc) :
    SameEffect [.pc] (.next (skipIf c s)) (.next (skipIf c' s')) :=
  sameEffect_one.2 (by simp only [Part.same, skipIf_pc, hc, hpc])

theorem setV_sameEffect (x : RegIdx) {v v' : Byte} (s s' : State) (hv : v' = v) :
    SameEffect [.v x] (.next (s.setV x v)) (.next (s'.setV x v')) :=
  sameEffect_one.2 (by simp only [Part.same, State.getV_setV_same, hv])

theorem ret_sameEffect {s s' : State} (h : s'.stack = s.stack) :
    SameEffect [.stack, .pc] (exec .ret s) (exec .ret s') := by
  cases hs : s.stack with
  | nil =>
    rw [exec_ret_nil hs, exec_ret_nil (h.trans hs)]
    exact rfl
  | cons a l =>
    rw [exec_ret_cons hs, exec_ret_cons (h.trans hs)]
    exact sameEffect_two.2 ⟨rfl, rfl⟩

/-- SKP and SKNP depend on V[x], the keys and the pc an untaken skip keeps (rules R120 to R122). -/
theorem keySkip_sameEffect {x : RegIdx} {s s' : State} (hx : s'.getV x = s.getV x) (hk : s'.keys = s.keys)
    (hpc : s'.pc = s.pc) :
    SameEffect [.pc] (exec (.skp x) s) (exec (.skp x) s') ∧
      SameEffect [.pc] (exec (.sknp x) s) (exec (.sknp x) s') := by
  rcases Nat.lt_or_ge (s.getV x).toNat 16 with hlt | hge
  · rw [exec_skp_in hlt, exec_skp_in (hx ▸ hlt), exec_sknp_in hlt, exec_sknp_in (hx ▸ hlt)]
    exact ⟨skipIf_sameEffect (by simp only [hx, hk]) hpc, skipIf_sameEffect (by simp only [hx, hk]) hpc⟩
  · rw [exec_skp_out hge, exec_skp_out (hx ▸ hge), exec_sknp_out hge, exec_sknp_out (hx ▸ hge), hx]
    exact ⟨rfl, rfl⟩

/-- A sprite's bytes are those of its own cells. -/
theorem spriteBytes_congr {s s' : State} {base : Addr} {todo r : Nat}
    (h : ∀ k, k < r + todo → s'.readByte (base + BitVec.ofNat 12 k) = s.readByte (base + BitVec.ofNat 12 k)) :
    s'.spriteBytes base todo r = s.spriteBytes base todo r := by
  induction todo generalizing r with
  | zero => rfl
  | succ todo ih =>
    simp only [State.spriteBytes]
    rw [h r (by omega), ih fun k hk => h k (by omega)]

/-- A sprite cell as the drawing unit addresses it. -/
theorem sprite_mem_reads (s : State) (x y : RegIdx) {n : Nibble} {k : Nat} (hk : k < n.toNat) :
    Part.mem (s.I + BitVec.ofNat 12 k) ∈ reads s (.drw x y n) := by
  refine List.mem_append_right _ (List.mem_map.2 ⟨k, List.mem_range.2 hk, ?_⟩)
  rw [BitVec.ofNat_add, BitVec.ofNat_toNat, BitVec.setWidth_eq]

theorem drawn_congr {x y : RegIdx} {n : Nibble} {s s' : State}
    (h : ∀ p ∈ reads s (.drw x y n), p.same s s') : drawn x y n s' = drawn x y n s := by
  have hx : s'.getV x = s.getV x := h (.v x) (by simp [reads])
  have hy : s'.getV y = s.getV y := h (.v y) (by simp [reads])
  have hi : s'.I = s.I := h .i (by simp [reads])
  have hd : s'.display = s.display := h .display (by simp [reads])
  have hb : s'.spriteBytes s.I n.toNat 0 = s.spriteBytes s.I n.toNat 0 :=
    spriteBytes_congr fun k hk => h (.mem _) (sprite_mem_reads s x y (by omega))
  simp only [drawn, hx, hy, hi, hd, hb]

theorem drw_sameEffect {x y : RegIdx} {n : Nibble} {s s' : State}
    (h : ∀ p ∈ reads s (.drw x y n), p.same s s') :
    SameEffect [.display, .v 0xF] (exec (.drw x y n) s) (exec (.drw x y n) s') := by
  have hi : s'.I = s.I := h .i (by simp [reads])
  by_cases ho : 0 < n.toNat ∧ 0xFFF < s.I.toNat + n.toNat - 1
  · rw [exec_drw_out x y ho, exec_drw_out x y (hi ▸ ho), hi]
    exact rfl
  · rw [exec_drw_in x y ho, exec_drw_in x y (hi ▸ ho), drawn_congr h]
    exact sameEffect_two.2 ⟨rfl, by simp only [Part.same, State.getV_setVF, if_true]⟩

/-- The fallback extends the event log by the same word (rule R140). -/
theorem unimplemented_sameEffect {i : Instr} {s s' : State} (hi : i.implemented = false)
    (hw : writes i = [.diag, .events]) (hev : s'.events = s.events) :
    SameEffect (writes i) (exec i s) (exec i s') := by
  rw [exec_unimplemented s hi, exec_unimplemented s' hi, hw]
  exact sameEffect_two.2 ⟨rfl, by simp only [Part.same, State.emit_events, hev]⟩

/-! ### The load and the host's moves -/

theorem loadImage_of_le {bytes : List Byte} (s : State) (h : bytes.length ≤ 3584) :
    loadImage bytes s = .ok (s.setMemory (Memory.writeBytes s.memory 0x200 bytes)) :=
  if_neg (Nat.not_lt.2 h)

theorem loadImage_of_gt {bytes : List Byte} (s : State) (h : 3584 < bytes.length) :
    loadImage bytes s = .error (.imageTooLarge bytes.length) := if_pos h

/-- An accepted load wrote the bytes from 0x200 upward, inside memory (rule R34). -/
theorem loadImage_ok {bytes : List Byte} {s t : State} (h : loadImage bytes s = .ok t) :
    bytes.length ≤ 3584 ∧ t = s.setMemory (Memory.writeBytes s.memory 0x200 bytes) := by
  rcases Nat.lt_or_ge 3584 bytes.length with hgt | hle
  · rw [loadImage_of_gt s hgt] at h
    exact nomatch h
  · rw [loadImage_of_le s hle] at h
    exact ⟨hle, (Except.ok.inj h).symm⟩

/-- A load changes memory alone. -/
theorem setMemory_same {p : Part} (s : State) (m : Memory) (hp : ∀ a, p ≠ .mem a) : p.same s (s.setMemory m) := by
  cases p with
  | mem a => exact absurd rfl (hp a)
  | _ => exact rfl

/-- The addresses of an image: every other cell lies below 0x200 or past the last byte (rule R34). -/
theorem outside_image {len : Nat} {a : Addr}
    (h : Part.mem a ∉ (List.range len).map fun k => .mem (BitVec.ofNat 12 (0x200 + k))) :
    a.toNat < 0x200 ∨ 0x200 + len ≤ a.toNat := by
  refine Classical.byContradiction fun hin => h (List.mem_map.2 ⟨a.toNat - 0x200, List.mem_range.2 (by omega), ?_⟩)
  rw [Nat.add_sub_cancel' (by omega), BitVec.ofNat_toNat, BitVec.setWidth_eq]

/-- The frame of a load: every cell but the image's (rule R34). -/
theorem setMemory_writeBytes_frame (s : State) (bytes : List Byte) :
    UnchangedBut ((List.range bytes.length).map fun k => .mem (BitVec.ofNat 12 (0x200 + k))) s
      (s.setMemory (Memory.writeBytes s.memory 0x200 bytes)) := by
  intro p hp
  cases p with
  | mem a => exact Memory.read_writeBytes_outside s.memory bytes (outside_image hp)
  | _ => exact rfl

/-- A move of the host other than a cycle replaced the keys, or loaded an image before the first cycle
(rule R179). -/
theorem move_cases {l l' : Life} {m : HostMove} (hm : m ≠ .cycle) (h : l.move m = .moved l') :
    (∃ k, l'.core = l.core.setKeys k) ∨
      (l.phase = .constructed ∧ ∃ mem, l'.core = l.core.setMemory mem) := by
  cases m with
  | cycle => exact absurd rfl hm
  | setKeys k => exact .inl ⟨k, by cases h; rfl⟩
  | loadImage bytes =>
    simp only [Life.move] at h
    split at h
    · next hp =>
      split at h
      · next t ht =>
        cases h
        exact .inr ⟨hp, _, (loadImage_ok ht).2⟩
      · exact nomatch h
    · exact nomatch h
    · exact nomatch h

end Sys2Proof.Safety

/-! The statements of the family 10_state.md. -/

namespace Sys2Proof.Proofs

open Sys2Proof Sys2Proof.Machine Sys2Proof.Safety

/-- Settles O3: a skipped cycle emits one diagnostic, a fetched one starts, executes and ticks, and each
of these keeps the invariant. -/
theorem stepKeepsInvariant : Obligations.StepKeepsInvariant := by
  intro s t hs hstep
  obtain ⟨-, ⟨-, rfl⟩ | ⟨-, u, hu, rfl⟩⟩ := step_next_cases hstep
  · exact emit_inv hs (.pcOutOfBounds s.pc)
  · exact tick_inv (exec_inv (startCycle_inv hs) hu)

/-- Settles O4: the image lies from 0x200 upward and inside memory. -/
theorem loadKeepsInvariant : Obligations.LoadKeepsInvariant := by
  intro bytes s t hs hload
  obtain ⟨hlen, rfl⟩ := loadImage_ok hload
  exact {
    memWf := Memory.writeBytes_wf hs.memWf bytes (by omega)
    lowZero := fun a ha => (Memory.read_writeBytes_outside s.memory bytes (.inl ha)).trans (hs.lowZero a ha)
    notHalted := hs.notHalted
    lastDiag := hs.lastDiag }

/-- Settles O19: the instruction leaves the advanced pc alone, and the advance does not wrap below 0xFFE. -/
theorem sequentialInstructionsAdvanceByTwo : Obligations.SequentialInstructionsAdvanceByTwo := by
  intro s t hf hstep hw
  obtain ⟨u, hu, rfl⟩ := step_next_fetched hf hstep
  have hpc : u.pc = s.pc + 2 := exec_frame hu .pc hw
  rw [State.tick_pc, hpc, advance_toNat hf.2]

/-- Settles O20, by the frame of each kind of effect and of the phases around it. -/
theorem frameOfEveryInstruction : Obligations.FrameOfEveryInstruction :=
  ⟨fun _ _ _ h => exec_frame h, fun _ _ hf h => step_frame hf h⟩

/-- Settles O21, instruction by instruction: what is written is computed from what is read, or the old
value that stays or is extended agrees. -/
theorem effectDependsOnlyOnReads : Obligations.EffectDependsOnlyOnReads := by
  intro i s s' h
  cases i with
  | cls => exact sameEffect_one.2 rfl
  | ret => exact ret_sameEffect (h .stack (by simp [reads]))
  | jp nnn => exact sameEffect_one.2 rfl
  | call nnn =>
    have hpc : s'.pc = s.pc := h .pc (by simp [reads])
    have hst : s'.stack = s.stack := h .stack (by simp [keepsOrExtends])
    exact sameEffect_two.2 ⟨show s'.pc :: s'.stack = s.pc :: s.stack by rw [hpc, hst], rfl⟩
  | seImm x nn | sneImm x nn =>
    have hx : s'.getV x = s.getV x := h (.v x) (by simp [reads])
    exact skipIf_sameEffect (by rw [hx]) (h .pc (by simp [keepsOrExtends]))
  | seReg x y | sneReg x y =>
    have hx : s'.getV x = s.getV x := h (.v x) (by simp [reads])
    have hy : s'.getV y = s.getV y := h (.v y) (by simp [reads])
    exact skipIf_sameEffect (by rw [hx, hy]) (h .pc (by simp [keepsOrExtends]))
  | ldImm x nn => exact setV_sameEffect x s s' rfl
  | addImm x nn =>
    have hx : s'.getV x = s.getV x := h (.v x) (by simp [reads])
    exact setV_sameEffect x s s' (by rw [hx])
  | ldI nnn => exact sameEffect_one.2 rfl
  | rnd x nn =>
    have hdraws : s'.draws = s.draws := h .draws (by simp [reads])
    have hrnd : s'.rnd = s.rnd := congrArg Config.rndByte hdraws
    have hv := sameEffect_one.1 (setV_sameEffect x s s' (congrArg (· &&& nn) hrnd))
    exact sameEffect_two.2 ⟨hv, congrArg (· + 1) hdraws⟩
  | drw x y n => exact drw_sameEffect fun p hp => h p (List.mem_append_left _ hp)
  | skp x =>
    exact (keySkip_sameEffect (h (.v x) (by simp [reads])) (h .keys (by simp [reads]))
      (h .pc (by simp [keepsOrExtends]))).1
  | sknp x =>
    exact (keySkip_sameEffect (h (.v x) (by simp [reads])) (h .keys (by simp [reads]))
      (h .pc (by simp [keepsOrExtends]))).2
  | ldVxDT x => exact setV_sameEffect x s s' (h .delayTimer (by simp [reads]))
  | ldDTVx x | ldSTVx x => exact sameEffect_one.2 (h (.v x) (by simp [reads]))
  | addI x =>
    have hi : s'.I = s.I := h .i (by simp [reads])
    have hx : s'.getV x = s.getV x := h (.v x) (by simp [reads])
    exact sameEffect_one.2 (show addIndex s'.I (s'.getV x) = addIndex s.I (s.getV x) by rw [hi, hx])
  | unimpl8xy | unimplBnnn | unimplFx0A | unimplFx29 | unimplFx33 | unimplFx55 | unimplFx65 | unimplAny =>
    exact unimplemented_sameEffect rfl rfl (h .events (by simp [keepsOrExtends]))

/-- Settles O24: by the frame, only 2nnn and 00EE change the stack, and each by the entry its rule names. -/
theorem stackChangesByOneEntry : Obligations.StackChangesByOneEntry := by
  intro s t hstep
  obtain ⟨-, ⟨-, rfl⟩ | ⟨-, u, hu, rfl⟩⟩ := step_next_cases hstep
  · exact .inl rfl
  by_cases hw : Part.stack ∈ writes (current s)
  · rcases of_stack_mem_writes hw with hret | ⟨nnn, hcall⟩
    · rw [hret] at hu
      obtain ⟨a, l, hs, rfl⟩ := exec_ret_next hu
      exact .inr (.inr ⟨hret, hs⟩)
    · rw [hcall] at hu
      obtain rfl := Host.Outcome.next.inj hu
      exact .inr (.inl ⟨nnn, hcall, rfl, rfl⟩)
  · exact .inl (exec_frame hu .stack hw)

/-- Settles O25: a register that changed is in the writes row, where VF stands for Dxyn or as the
destination. -/
theorem onlyDrawWritesVFImplicitly : Obligations.OnlyDrawWritesVFImplicitly := by
  intro i s t h hne
  exact of_v_mem_writes (Classical.byContradiction fun hw => hne (exec_frame h (.v 0xF) hw))

/-- Settles O56: bytes written are read back, and every other cell lies outside the range written. -/
theorem loadImagePlacesTheBytes : Obligations.LoadImagePlacesTheBytes := by
  intro bytes s hwf
  refine ⟨fun hlen => ⟨_, loadImage_of_le s hlen, fun k hk => ?_, setMemory_writeBytes_frame s bytes⟩,
    loadImage_of_gt s⟩
  have hk' : (BitVec.ofNat 12 (0x200 + k)).toNat = 0x200 + k := by
    rw [BitVec.toNat_ofNat]; omega
  rw [State.readByte, hk']
  exact Memory.read_writeBytes_inside hwf bytes (by omega) k hk

/-- Settles O58, by the two moves that are no cycle; a load is possible only before the first cycle. -/
theorem hostMovesChangeKeysAndMemoryOnly : Obligations.HostMovesChangeKeysAndMemoryOnly := by
  refine ⟨fun k s => ⟨fun _ => rfl, setKeys_frame s k⟩, fun l l' m hm hmove p hkeys hmem => ?_,
    fun l l' m hm hmove hrun => ?_⟩
  · rcases move_cases hm hmove with ⟨k, hk⟩ | ⟨-, mem, hload⟩
    · rw [hk]; exact setKeys_frame l.core k p (by simpa using hkeys)
    · rw [hload]; exact setMemory_same l.core mem hmem
  · rcases move_cases hm hmove with ⟨k, hk⟩ | ⟨hphase, -⟩
    · rw [hk]; rfl
    · exact absurd (hphase.symm.trans hrun) (by decide)

/-- Settles O1, field by field. -/
theorem resetHoldsTheStatedValues : Obligations.ResetHoldsTheStatedValues :=
  ⟨fun a => Memory.read_nil a.toNat, fun _ => Vector.getElem_replicate _, rfl, rfl, rfl,
    Display.pixel_clear, rfl, rfl, fun _ => Vector.getElem_replicate _, rfl, rfl, rfl⟩

/-- Settles O2: memory lists no cell, and there is no diagnostic yet. -/
theorem invariantAtReset : Obligations.InvariantAtReset where
  memWf := State.reset_memory_wf
  lowZero a _ := Memory.read_nil a.toNat
  notHalted := rfl
  lastDiag _ hd := nomatch hd

end Sys2Proof.Proofs

/-! SUPPORT. Proofs of the family 20_memory.md: memory through a cycle and through the host's loop
(rule R56), and how far each move of the host brings a life (rules R63, R179). -/

namespace Sys2Proof.Safety

open Sys2Proof.Machine

/-! ### Memory through a cycle and a run -/

/-- No cycle writes memory, as data (rule R56): a skipped one only emits its diagnostic, and of a fetched
one the instruction is the one phase to consider. -/
theorem step_memory {s t : State} (h : step s = .next t) : t.memory = s.memory := by
  obtain ⟨-, ⟨-, rfl⟩ | ⟨-, u, hu, rfl⟩⟩ := step_next_cases h
  · exact State.emit_memory s _
  · rw [State.tick_memory, exec_memory hu, State.startCycle_memory]

/-- No run of the host's loop writes memory: between cycles only the snapshot is replaced. -/
theorem hostRun_memory {ks : List Keys} {s t : State} (h : hostRun ks s = .next t) :
    t.memory = s.memory := by
  induction ks generalizing s with
  | nil => rw [Host.Outcome.next.inj h]
  | cons k ks ih =>
    obtain ⟨u, hstep, hrun⟩ := hostRun_cons h
    calc t.memory = u.memory := ih hrun
      _ = (setKeys k s).memory := step_memory hstep
      _ = s.memory := State.setKeys_memory s k

/-! ### The phase each move leaves -/

/-- The host has the load move in a life just constructed and in no other (rule R63). -/
theorem move_loadImage_eq_noSuchMove_iff {l : Life} {bytes : List Byte} :
    l.move (.loadImage bytes) = .noSuchMove ↔ l.phase ≠ .constructed := by
  cases hp : l.phase with
  | constructed =>
    simp only [Life.move, hp]
    cases loadImage bytes l.core <;> simp
  | loaded | running => simp [Life.move, hp]

theorem move_loadImage_phase {l l' : Life} {bytes : List Byte}
    (h : l.move (.loadImage bytes) = .moved l') : l'.phase = .loaded := by
  simp only [Life.move] at h
  split at h
  · split at h
    · cases h; rfl
    · exact nomatch h
  · exact nomatch h
  · exact nomatch h

theorem move_setKeys_phase {l l' : Life} {k : Keys} (h : l.move (.setKeys k) = .moved l') :
    l'.phase = l.phase := by
  cases h; rfl

theorem move_cycle_phase {l l' : Life} (h : l.move .cycle = .moved l') : l'.phase = .running := by
  simp only [Life.move] at h
  split at h
  · cases h; rfl
  · exact nomatch h
  · exact nomatch h

end Sys2Proof.Safety

/-! The statements of the family 20_memory.md. -/

namespace Sys2Proof.Proofs

open Sys2Proof Sys2Proof.Machine Sys2Proof.Safety

/-- Settles O23: each cycle keeps memory, and so does the host's loop by induction on the snapshots. -/
theorem memoryIsConstantAfterLoad : Obligations.MemoryIsConstantAfterLoad :=
  ⟨fun _ _ h => step_memory h, fun _ _ _ h => hostRun_memory h⟩

/-- Settles O57: a load leads to the loaded phase, a cycle to the running one, and new keys keep the phase;
so no move leads to the phase that has the load. -/
theorem theImageIsLoadedOnce : Obligations.TheImageIsLoadedOnce := by
  intro l l' m hmove hlate bytes
  rw [move_loadImage_eq_noSuchMove_iff]
  cases m with
  | loadImage image => rw [move_loadImage_phase hmove]; decide
  | cycle => rw [move_cycle_phase hmove]; decide
  | setKeys k =>
    have hphase : l.phase ≠ .constructed := by simpa using hlate
    rwa [move_setKeys_phase hmove]

end Sys2Proof.Proofs

/-! SUPPORT. Proofs of the family 30_encoding.md. One lemma per row of the opcode table says what its
words decode to (rules R74, R75). From these and the round trip of words, the row of a decoded instruction
is the one row that selects the word, and the catch-all is left with the words no other row selects. -/

namespace Sys2Proof.Safety

open Sys2Proof.Laws

/-! ### What the words of each row decode to -/

theorem encodes_cls : Encodes 0xFFFF 0x00E0 fun _ => .cls := fun w h => by
  obtain rfl : w = 0x00E0 := (BitVec.and_allOnes (x := w)).symm.trans h
  rfl

theorem encodes_ret : Encodes 0xFFFF 0x00EE fun _ => .ret := fun w h => by
  obtain rfl : w = 0x00EE := (BitVec.and_allOnes (x := w)).symm.trans h
  rfl

theorem encodes_jp : Encodes 0xF000 0x1000 fun w => .jp (fieldNNN w) := fun _ h =>
  decodeWord_top1 (fieldTop_of_mask h (by decide))

theorem encodes_call : Encodes 0xF000 0x2000 fun w => .call (fieldNNN w) := fun _ h =>
  decodeWord_top2 (fieldTop_of_mask h (by decide))

theorem encodes_seImm : Encodes 0xF000 0x3000 fun w => .seImm (fieldX w) (fieldNN w) := fun _ h =>
  decodeWord_top3 (fieldTop_of_mask h (by decide))

theorem encodes_sneImm : Encodes 0xF000 0x4000 fun w => .sneImm (fieldX w) (fieldNN w) := fun _ h =>
  decodeWord_top4 (fieldTop_of_mask h (by decide))

theorem encodes_seReg : Encodes 0xF00F 0x5000 fun w => .seReg (fieldX w) (fieldY w) := fun _ h =>
  (decodeWord_top5 (fieldTop_of_mask h (by decide))).trans (if_pos (fieldN_of_mask h (by decide)))

theorem encodes_ldImm : Encodes 0xF000 0x6000 fun w => .ldImm (fieldX w) (fieldNN w) := fun _ h =>
  decodeWord_top6 (fieldTop_of_mask h (by decide))

theorem encodes_addImm : Encodes 0xF000 0x7000 fun w => .addImm (fieldX w) (fieldNN w) := fun _ h =>
  decodeWord_top7 (fieldTop_of_mask h (by decide))

theorem encodes_sneReg : Encodes 0xF00F 0x9000 fun w => .sneReg (fieldX w) (fieldY w) := fun _ h =>
  (decodeWord_top9 (fieldTop_of_mask h (by decide))).trans (if_pos (fieldN_of_mask h (by decide)))

theorem encodes_ldI : Encodes 0xF000 0xA000 fun w => .ldI (fieldNNN w) := fun _ h =>
  decodeWord_topA (fieldTop_of_mask h (by decide))

theorem encodes_rnd : Encodes 0xF000 0xC000 fun w => .rnd (fieldX w) (fieldNN w) := fun _ h =>
  decodeWord_topC (fieldTop_of_mask h (by decide))

theorem encodes_drw : Encodes 0xF000 0xD000 fun w => .drw (fieldX w) (fieldY w) (fieldN w) := fun _ h =>
  decodeWord_topD (fieldTop_of_mask h (by decide))

theorem encodes_skp : Encodes 0xF0FF 0xE09E fun w => .skp (fieldX w) := fun _ h =>
  (decodeWord_topE (fieldTop_of_mask h (by decide))).trans (decodeE_9E (fieldNN_of_mask h (by decide)))

theorem encodes_sknp : Encodes 0xF0FF 0xE0A1 fun w => .sknp (fieldX w) := fun _ h =>
  (decodeWord_topE (fieldTop_of_mask h (by decide))).trans (decodeE_A1 (fieldNN_of_mask h (by decide)))

theorem encodes_ldVxDT : Encodes 0xF0FF 0xF007 fun w => .ldVxDT (fieldX w) := fun _ h =>
  (decodeWord_topF (fieldTop_of_mask h (by decide))).trans (decodeF_07 (fieldNN_of_mask h (by decide)))

theorem encodes_ldDTVx : Encodes 0xF0FF 0xF015 fun w => .ldDTVx (fieldX w) := fun _ h =>
  (decodeWord_topF (fieldTop_of_mask h (by decide))).trans (decodeF_15 (fieldNN_of_mask h (by decide)))

theorem encodes_ldSTVx : Encodes 0xF0FF 0xF018 fun w => .ldSTVx (fieldX w) := fun _ h =>
  (decodeWord_topF (fieldTop_of_mask h (by decide))).trans (decodeF_18 (fieldNN_of_mask h (by decide)))

theorem encodes_addI : Encodes 0xF0FF 0xF01E fun w => .addI (fieldX w) := fun _ h =>
  (decodeWord_topF (fieldTop_of_mask h (by decide))).trans (decodeF_1E (fieldNN_of_mask h (by decide)))

theorem encodes_unimpl8xy :
    Encodes 0xF000 0x8000 fun w => .unimpl8xy (fieldX w) (fieldY w) (fieldN w) := fun _ h =>
  decodeWord_top8 (fieldTop_of_mask h (by decide))

theorem encodes_unimplBnnn : Encodes 0xF000 0xB000 fun w => .unimplBnnn (fieldNNN w) := fun _ h =>
  decodeWord_topB (fieldTop_of_mask h (by decide))

theorem encodes_unimplFx0A : Encodes 0xF0FF 0xF00A fun w => .unimplFx0A (fieldX w) := fun _ h =>
  (decodeWord_topF (fieldTop_of_mask h (by decide))).trans (decodeF_0A (fieldNN_of_mask h (by decide)))

theorem encodes_unimplFx29 : Encodes 0xF0FF 0xF029 fun w => .unimplFx29 (fieldX w) := fun _ h =>
  (decodeWord_topF (fieldTop_of_mask h (by decide))).trans (decodeF_29 (fieldNN_of_mask h (by decide)))

theorem encodes_unimplFx33 : Encodes 0xF0FF 0xF033 fun w => .unimplFx33 (fieldX w) := fun _ h =>
  (decodeWord_topF (fieldTop_of_mask h (by decide))).trans (decodeF_33 (fieldNN_of_mask h (by decide)))

theorem encodes_unimplFx55 : Encodes 0xF0FF 0xF055 fun w => .unimplFx55 (fieldX w) := fun _ h =>
  (decodeWord_topF (fieldTop_of_mask h (by decide))).trans (decodeF_55 (fieldNN_of_mask h (by decide)))

theorem encodes_unimplFx65 : Encodes 0xF0FF 0xF065 fun w => .unimplFx65 (fieldX w) := fun _ h =>
  (decodeWord_topF (fieldTop_of_mask h (by decide))).trans (decodeF_65 (fieldNN_of_mask h (by decide)))

/-! ### The rows -/

theorem selects_iff {r : OpcodeRow} {w : Word} : r.selects w = true ↔ w &&& r.mask = r.pat := beq_iff_eq

/-- Two rows whose patterns differ in a bit that both masks keep have no word in common. -/
theorem not_selects_both {r r' : OpcodeRow} (h : r.pat &&& r'.mask ≠ r'.pat &&& r.mask) (w : Word) :
    ¬(r.selects w = true ∧ r'.selects w = true) := by
  simp only [selects_iff]
  rintro ⟨hr, hr'⟩
  refine h ?_
  rw [← hr, ← hr', BitVec.and_assoc, BitVec.and_assoc, BitVec.and_comm r.mask]

theorem row_of_encodes {m p : Word} {f : Word → Instr} (he : Encodes m p f) (hrow : ∀ w, (f w).row = ⟨m, p⟩)
    (w : Word) (h : OpcodeRow.selects ⟨m, p⟩ w = true) : (decodeWord w).row = ⟨m, p⟩ := by
  rw [he w (selects_iff.1 h), hrow]

/-- A word that a row other than the catch-all selects decodes to an instruction of that row. -/
theorem row_decodeWord_of_selects : ∀ r ∈ implementedRows ++ namedUnimplementedRows,
    ∀ w, r.selects w = true → (decodeWord w).row = r := by
  simp only [implementedRows, namedUnimplementedRows, List.cons_append, List.nil_append, List.forall_mem_cons]
  exact ⟨row_of_encodes encodes_cls fun _ => rfl, row_of_encodes encodes_ret fun _ => rfl,
    row_of_encodes encodes_jp fun _ => rfl, row_of_encodes encodes_call fun _ => rfl,
    row_of_encodes encodes_seImm fun _ => rfl, row_of_encodes encodes_sneImm fun _ => rfl,
    row_of_encodes encodes_seReg fun _ => rfl, row_of_encodes encodes_ldImm fun _ => rfl,
    row_of_encodes encodes_addImm fun _ => rfl, row_of_encodes encodes_sneReg fun _ => rfl,
    row_of_encodes encodes_ldI fun _ => rfl, row_of_encodes encodes_rnd fun _ => rfl,
    row_of_encodes encodes_drw fun _ => rfl, row_of_encodes encodes_skp fun _ => rfl,
    row_of_encodes encodes_sknp fun _ => rfl, row_of_encodes encodes_ldVxDT fun _ => rfl,
    row_of_encodes encodes_ldDTVx fun _ => rfl, row_of_encodes encodes_ldSTVx fun _ => rfl,
    row_of_encodes encodes_addI fun _ => rfl, row_of_encodes encodes_unimpl8xy fun _ => rfl,
    row_of_encodes encodes_unimplBnnn fun _ => rfl, row_of_encodes encodes_unimplFx0A fun _ => rfl,
    row_of_encodes encodes_unimplFx29 fun _ => rfl, row_of_encodes encodes_unimplFx33 fun _ => rfl,
    row_of_encodes encodes_unimplFx55 fun _ => rfl, row_of_encodes encodes_unimplFx65 fun _ => rfl,
    List.forall_mem_nil _⟩

/-- The encoded word has the fixed bits of its instruction's row. -/
theorem row_selects_encode : ∀ i : Instr, i.row.selects (encode i) = true
  | .cls => FixedBits.cls
  | .ret => FixedBits.ret
  | .jp nnn => FixedBits.jp nnn
  | .call nnn => FixedBits.call nnn
  | .seImm x nn => FixedBits.seImm x nn
  | .sneImm x nn => FixedBits.sneImm x nn
  | .seReg x y => FixedBits.seReg x y
  | .ldImm x nn => FixedBits.ldImm x nn
  | .addImm x nn => FixedBits.addImm x nn
  | .sneReg x y => FixedBits.sneReg x y
  | .ldI nnn => FixedBits.ldI nnn
  | .rnd x nn => FixedBits.rnd x nn
  | .drw x y n => FixedBits.drw x y n
  | .skp x => FixedBits.skp x
  | .sknp x => FixedBits.sknp x
  | .ldVxDT x => FixedBits.ldVxDT x
  | .ldDTVx x => FixedBits.ldDTVx x
  | .ldSTVx x => FixedBits.ldSTVx x
  | .addI x => FixedBits.addI x
  | .unimpl8xy x y n => FixedBits.unimpl8xy x y n
  | .unimplBnnn nnn => FixedBits.unimplBnnn nnn
  | .unimplFx0A x => FixedBits.unimplFx0A x
  | .unimplFx29 x => FixedBits.unimplFx29 x
  | .unimplFx33 x => FixedBits.unimplFx33 x
  | .unimplFx55 x => FixedBits.unimplFx55 x
  | .unimplFx65 x => FixedBits.unimplFx65 x
  | .unimplAny op => FixedBits.unimplAny op

theorem implemented_iff_row_mem (i : Instr) : i.implemented = true ↔ i.row ∈ implementedRows := by
  cases i <;> simp [Instr.implemented, Instr.row, implementedRows, catchAllRow]

/-- Only the catch-all has its row outside the table's other rows. -/
theorem row_mem_or_unimplAny (i : Instr) :
    i.row ∈ implementedRows ++ namedUnimplementedRows ∨ ∃ op, i = .unimplAny op := by
  cases i with
  | unimplAny op => exact .inr ⟨op, rfl⟩
  | _ => exact .inl (by simp [Instr.row, implementedRows, namedUnimplementedRows])

theorem catchAllRow_not_mem : catchAllRow ∉ implementedRows ++ namedUnimplementedRows := by decide

theorem isOtherWord_iff {w : Word} :
    isOtherWord w = true ↔ ∀ r ∈ implementedRows ++ namedUnimplementedRows, ¬r.selects w = true := by
  simp only [isOtherWord, Bool.not_eq_true', List.any_eq_false]

/-! ### The round trips

A word whose first digit (and fixed low digits) are known is built from its other fields, in each format of
rule R72. -/

theorem wordNNN_of_top {w : Word} {t : Nibble} (h : (fieldTop w).toNat = t.toNat) :
    wordNNN t (fieldNNN w) = w := BitVec.eq_of_toNat_eq h ▸ wordNNN_fields w

theorem wordXNN_of_top {w : Word} {t : Nibble} (h : (fieldTop w).toNat = t.toNat) :
    wordXNN t (fieldX w) (fieldNN w) = w := BitVec.eq_of_toNat_eq h ▸ wordXNN_fields w

theorem wordXYN_of_top {w : Word} {t : Nibble} (h : (fieldTop w).toNat = t.toNat) :
    wordXYN t (fieldX w) (fieldY w) (fieldN w) = w := BitVec.eq_of_toNat_eq h ▸ wordXYN_fields w

theorem wordXKK_of_top {w : Word} {t : Nibble} {b : Byte} (h : (fieldTop w).toNat = t.toNat)
    (hb : (fieldNN w).toNat = b.toNat) : wordXNN t (fieldX w) b = w :=
  BitVec.eq_of_toNat_eq hb ▸ wordXNN_of_top h

theorem wordXY0_of_top {w : Word} {t : Nibble} (h : (fieldTop w).toNat = t.toNat)
    (hn : fieldN w = 0) : wordXYN t (fieldX w) (fieldY w) 0 = w :=
  hn ▸ wordXYN_of_top h

theorem encode_decodeE {w : Word} (h : (fieldTop w).toNat = 0xE) : encode (decodeE w) = w := by
  unfold decodeE
  split
  · next hb => exact wordXKK_of_top h hb
  · next hb => exact wordXKK_of_top h hb
  · rfl

theorem encode_decodeF {w : Word} (h : (fieldTop w).toNat = 0xF) : encode (decodeF w) = w := by
  unfold decodeF
  split
  case h_10 => rfl
  all_goals exact wordXKK_of_top h ‹_›

/-- The decoder loses no bit: each branch knows the digits it drops (rule R77). -/
theorem encode_decodeWord (w : Word) : encode (decodeWord w) = w := by
  unfold decodeWord
  split
  · next h => exact h.symm
  split
  · next h => exact h.symm
  split
  · next h => exact wordNNN_of_top h
  · next h => exact wordNNN_of_top h
  · next h => exact wordXNN_of_top h
  · next h => exact wordXNN_of_top h
  · next h =>
    split
    · next hn => exact wordXY0_of_top h hn
    · rfl
  · next h => exact wordXNN_of_top h
  · next h => exact wordXNN_of_top h
  · next h => exact wordXYN_of_top h
  · next h =>
    split
    · next hn => exact wordXY0_of_top h hn
    · rfl
  · next h => exact wordNNN_of_top h
  · next h => exact wordNNN_of_top h
  · next h => exact wordXNN_of_top h
  · next h => exact wordXYN_of_top h
  · next h => exact encode_decodeE h
  · next h => exact encode_decodeF h
  · rfl

theorem row_decodeWord_selects (w : Word) : (decodeWord w).row.selects w = true := by
  have h := row_selects_encode (decodeWord w)
  rwa [encode_decodeWord] at h

/-- Exactly the words that no other row selects decode to the catch-all (rules R81, R142). -/
theorem decodeWord_eq_unimplAny_iff {w : Word} : decodeWord w = .unimplAny w ↔ isOtherWord w = true := by
  rw [isOtherWord_iff]
  constructor
  · intro h r hr hsel
    have hrow : catchAllRow = r := by simpa only [h, Instr.row] using row_decodeWord_of_selects r hr w hsel
    exact catchAllRow_not_mem (hrow ▸ hr)
  · intro h
    rcases row_mem_or_unimplAny (decodeWord w) with hmem | ⟨op, hop⟩
    · exact absurd (row_decodeWord_selects w) (h _ hmem)
    · have henc := encode_decodeWord w
      rw [hop] at henc ⊢
      exact congrArg _ henc

theorem decodeWord_wf (w : Word) : (decodeWord w).wf = true := by
  cases hi : decodeWord w with
  | unimplAny op =>
    obtain rfl : op = w := by simpa only [hi, encode] using encode_decodeWord w
    exact decodeWord_eq_unimplAny_iff.1 hi
  | _ => rfl

theorem decodeWord_encode {i : Instr} (h : i.wf = true) : decodeWord (encode i) = i := by
  cases i with
  | cls | ret => rfl
  | jp | call | ldI | unimplBnnn =>
    simp [encode, decodeWord_top1, decodeWord_top2, decodeWord_topA, decodeWord_topB]
  | seImm | sneImm | ldImm | addImm | rnd =>
    simp [encode, decodeWord_top3, decodeWord_top4, decodeWord_top6, decodeWord_top7, decodeWord_topC]
  | seReg | sneReg | drw | unimpl8xy =>
    simp [encode, decodeWord_top5, decodeWord_top8, decodeWord_top9, decodeWord_topD]
  | skp | sknp => simp [encode, decodeWord_topE, decodeE_9E, decodeE_A1]
  | ldVxDT | ldDTVx | ldSTVx | addI =>
    simp [encode, decodeWord_topF, decodeF_07, decodeF_15, decodeF_18, decodeF_1E]
  | unimplFx0A | unimplFx29 | unimplFx33 | unimplFx55 | unimplFx65 =>
    simp [encode, decodeWord_topF, decodeF_0A, decodeF_29, decodeF_33, decodeF_55, decodeF_65]
  | unimplAny op => exact decodeWord_eq_unimplAny_iff.2 h

/-! ### Fixed digits (rule R76) -/

/-- A low byte that differs under its mask differs as a field. -/
theorem fieldNN_ne_of_mask {w : Word} {b : Byte} (h : w &&& 0x00FF ≠ b.setWidth 16) : fieldNN w ≠ b :=
  mt lowByte_of_fieldNN h

end Sys2Proof.Safety

/-! The statements of the family 30_encoding.md. -/

namespace Sys2Proof.Proofs

open Sys2Proof Sys2Proof.Machine Sys2Proof.Safety

/-- Settles O5: a named instruction by the decoder's equation for its fixed digits, the catch-all because
its word is one that no other row selects. -/
theorem decodeEncodeRoundTrip : Obligations.DecodeEncodeRoundTrip :=
  ⟨fun _ h => decodeWord_encode h, fun _ => rfl⟩

/-- Settles O6: each branch of the decoder keeps every digit of the word. -/
theorem encodeDecodeRoundTrip : Obligations.EncodeDecodeRoundTrip := fun w =>
  ⟨encode_decodeWord w, decodeWord_wf w⟩

/-- Settles O7: a row that selects the word is the decoded instruction's row, and the implemented
instructions are those of the implemented rows. -/
theorem decoderFollowsTheOpcodeTable : Obligations.DecoderFollowsTheOpcodeTable := by
  intro w
  refine ⟨row_decodeWord_selects w, ?_⟩
  rw [implemented_iff_row_mem]
  constructor
  · exact fun h => ⟨_, h, row_decodeWord_selects w⟩
  · rintro ⟨r, hr, hsel⟩
    rwa [row_decodeWord_of_selects r (List.mem_append_left _ hr) w hsel]

/-- Settles O8: any two of the rows differ in a bit that both fix. -/
theorem opcodeRowsAreDisjoint : Obligations.OpcodeRowsAreDisjoint := by
  have hdiff : (implementedRows ++ namedUnimplementedRows).Pairwise fun r r' =>
      r.pat &&& r'.mask ≠ r'.pat &&& r.mask := by decide
  exact hdiff.imp fun h => not_selects_both h

/-- Settles O9, by the decoder's equation for each first digit: the digit or byte that follows is none of
the fixed ones. -/
theorem fixedDigitsAreMatchedStrictly : Obligations.FixedDigitsAreMatchedStrictly := by
  intro w
  refine ⟨fun h hn => ?_, fun h hn => ?_, fun h h0 hE => ?_, fun h h1 h2 => ?_, fun h h1 h2 h3 h4 => ?_⟩
  · rw [decodeWord_top5 (fieldTop_of_mask h (by decide)), if_neg (fieldN_ne_of_mask hn)]; rfl
  · rw [decodeWord_top9 (fieldTop_of_mask h (by decide)), if_neg (fieldN_ne_of_mask hn)]; rfl
  · rw [decodeWord_top0 (fieldTop_of_mask h (by decide)) h0 hE]; rfl
  · rw [decodeWord_topE (fieldTop_of_mask h (by decide)),
      decodeE_other (fieldNN_ne_of_mask h1) (fieldNN_ne_of_mask h2)]; rfl
  · rw [decodeWord_topF (fieldTop_of_mask h (by decide))]
    exact decodeF_not_implemented (fieldNN_ne_of_mask h1) (fieldNN_ne_of_mask h2)
      (fieldNN_ne_of_mask h3) (fieldNN_ne_of_mask h4)

/-- Settles O10, word by word. -/
theorem sampleWordsDecode : Obligations.SampleWordsDecode :=
  ⟨rfl, rfl, rfl, rfl, rfl, rfl, rfl, rfl, rfl, rfl⟩

end Sys2Proof.Proofs

/-! SUPPORT. Proofs of the family 40_cycle.md. One equation of `step` per case of rule R90 (halted, skipped,
fetched); an instruction raises its fatal condition or completes, and never both, so that a fatal cycle
leaves the latched state of rule R99; and only the fallback writes the outputs. -/

namespace Sys2Proof.Safety

open Sys2Proof.Machine

/-! ### A cycle, case by case -/

/-- A halted core has no step (rule R91). -/
theorem step_halted {s : State} {c : FatalCause} (h : s.halted = some c) : step s = .fault (.halted c) := by
  simp only [step, h]

/-- A skipped cycle is its diagnostic (rule R92). -/
theorem step_skipped {s : State} (hn : s.halted = none) (hpc : 0xFFE ≤ s.pc.toNat) :
    step s = .next (s.emit (.pcOutOfBounds s.pc)) := by
  simp only [step, hn, s.pcOutOfBounds_iff.2 hpc, if_true, State.skipCycle_eq]

/-- A fetched cycle starts, executes the instruction at pc, and ends (rules R93 to R96). -/
theorem step_fetched {s : State} (hf : Fetches s) :
    step s = endCycle (exec (current s) s.startCycle) := by
  have hin : ¬s.pcOutOfBounds = true := fun ho => absurd (s.pcOutOfBounds_iff.1 ho) (by have := hf.2; omega)
  simp only [step, hf.1, if_neg hin]
  rfl

/-! ### An instruction raises its fatal condition or completes -/

/-- An instruction raises its fatal condition where it meets one, and completes where it meets none (rules
R107, R110, R122). -/
theorem exec_raises_or_completes (i : Instr) (s : State) :
    (∃ c, fatalCondition s i = some c ∧ exec i s = raise c s) ∨
      (fatalCondition s i = none ∧ ∃ t, exec i s = .next t) := by
  cases i with
  | ret =>
    cases hs : s.stack with
    | nil => exact .inl ⟨_, if_pos hs, exec_ret_nil hs⟩
    | cons a l => exact .inr ⟨if_neg (by simp [hs]), _, exec_ret_cons hs⟩
  | skp x =>
    rcases Nat.lt_or_ge (s.getV x).toNat 16 with hk | hk
    · exact .inr ⟨if_neg (Nat.not_le.2 hk), _, exec_skp_in hk⟩
    · exact .inl ⟨_, if_pos hk, exec_skp_out hk⟩
  | sknp x =>
    rcases Nat.lt_or_ge (s.getV x).toNat 16 with hk | hk
    · exact .inr ⟨if_neg (Nat.not_le.2 hk), _, exec_sknp_in hk⟩
    · exact .inl ⟨_, if_pos hk, exec_sknp_out hk⟩
  | drw x y n =>
    by_cases ho : 0 < n.toNat ∧ 0xFFF < s.I.toNat + n.toNat - 1
    · exact .inl ⟨_, if_pos ho, exec_drw_out x y ho⟩
    · exact .inr ⟨if_neg ho, _, exec_drw_in x y ho⟩
  | _ => exact .inr ⟨rfl, _, rfl⟩

/-- An instruction stops only by raising its fatal condition, before any write (rule R99). -/
theorem exec_fault {i : Instr} {s : State} {f : Fault} (h : exec i s = .fault f) :
    ∃ c, fatalCondition s i = some c ∧ f = .fatal c (s.latch c) := by
  rcases exec_raises_or_completes i s with ⟨c, hc, hexec⟩ | ⟨-, t, hexec⟩
  · rw [hexec] at h
    exact ⟨c, hc, (Host.Outcome.fault.inj h).symm⟩
  · exact nomatch hexec.symm.trans h

/-- A fatal cycle leaves the state its instruction started on, with the cause latched (rule R99). -/
theorem step_fatal {s u : State} {c : FatalCause} (h : step s = .fault (.fatal c u)) :
    u = s.startCycle.latch c := by
  rcases step_fault_cases h with ⟨_, -, hf⟩ | ⟨-, -, hexec⟩
  · exact nomatch hf
  · obtain ⟨c', -, hf⟩ := exec_fault hexec
    cases hf
    rfl

theorem UnchangedBut.refl (ps : List Part) (s : State) : UnchangedBut ps s s := fun p _ => by
  cases p <;> rfl

theorem latch_frame (s : State) (c : FatalCause) : UnchangedBut [.halted] s (s.latch c) := by
  intro p hp
  cases p with
  | halted => simp at hp
  | _ => exact rfl

/-! ### Diagnostics -/

/-- An implemented instruction emits no diagnostic (rule R97). -/
theorem exec_implemented_outputs {i : Instr} {s t : State} (hi : i.implemented = true)
    (h : exec i s = .next t) : t.diag = s.diag ∧ t.events = s.events := by
  have hw : Part.diag ∉ writes i ∧ Part.events ∉ writes i := by
    cases i with
    | unimpl8xy | unimplBnnn | unimplFx0A | unimplFx29 | unimplFx33 | unimplFx55 | unimplFx65 | unimplAny =>
      exact nomatch hi
    | _ => simp [writes]
  exact ⟨exec_frame h .diag hw.1, exec_frame h .events hw.2⟩

/-- The fetched word is the encoding of the instruction it decodes to (rule R81). -/
theorem encode_current (s : State) : encode (current s) = fetched s := encode_decodeWord (fetched s)

end Sys2Proof.Safety

/-! The statements of the family 40_cycle.md. -/

namespace Sys2Proof.Proofs

open Sys2Proof Sys2Proof.Machine Sys2Proof.Safety

/-- Settles O13, by induction on the number of cycles: a skipped cycle leaves pc and `halted`, so the next
one is skipped too. -/
theorem outOfBoundsCyclesAreSkippedForEver : Obligations.OutOfBoundsCyclesAreSkippedForEver := by
  intro s k hn hpc
  induction k generalizing s with
  | zero => exact ⟨s, core_run_zero s, UnchangedBut.refl _ s, by simp, by simp⟩
  | succ k ih =>
    obtain ⟨t, hrun, hframe, hev, hdiag⟩ := ih (s.emit (.pcOutOfBounds s.pc)) hn hpc
    refine ⟨t, (core_run_succ (step_skipped hn hpc) k).trans hrun,
      ((emit_frame s _).trans hframe).weaken (by simp), ?_, fun _ => ?_⟩
    · rw [hev, State.emit_events, State.emit_pc, List.append_assoc, List.replicate_succ, List.singleton_append]
    · cases k with
      | zero =>
        obtain rfl := Host.Outcome.next.inj hrun
        rfl
      | succ k => exact hdiag k.succ_pos

/-- Settles O14: the tick ends a fetched cycle alone; a skipped one emits, and a fatal one latches. -/
theorem timersTickOncePerFetchedCycle : Obligations.TimersTickOncePerFetchedCycle := by
  intro s
  refine ⟨fun hf u hu => ?_, fun hn hpc => ⟨_, step_skipped hn hpc, rfl, rfl⟩, fun c u h => ?_⟩
  · have hstep : step s = .next u.tick := by rw [step_fetched hf, hu]; rfl
    exact ⟨u.tick, hstep, tickByte_toNat _, tickByte_toNat _, tick_frame u⟩
  · rw [step_fatal h]
    exact ⟨rfl, rfl⟩

/-- Settles O15, by the state a fatal cycle leaves: the start of the cycle and the latch. -/
theorem fatalConditionsArePrecise : Obligations.FatalConditionsArePrecise := by
  intro s u c h
  rw [step_fatal h]
  exact ⟨rfl, rfl, rfl, ((startCycle_frame s).trans (latch_frame _ c)).weaken (by simp)⟩

/-- Settles O17: a skipped cycle emits its pc; a fetched one emits nothing where the instruction is
implemented, and by the fallback the fetched word where it is not. -/
theorem oneDiagnosticPerCycle : Obligations.OneDiagnosticPerCycle := by
  intro s t hstep
  obtain ⟨-, ⟨hpc, rfl⟩ | ⟨hpc, u, hu, rfl⟩⟩ := step_next_cases hstep
  · exact ⟨rfl, .inr (.inl ⟨rfl, hpc⟩)⟩
  cases hi : (current s).implemented with
  | true =>
    obtain ⟨hdiag, hev⟩ := exec_implemented_outputs hi hu
    simp only [State.startCycle_diag, State.startCycle_events] at hdiag hev
    exact ⟨by simp [hdiag, hev], .inl ⟨hdiag, hpc, rfl⟩⟩
  | false =>
    rw [exec_unimplemented _ hi, encode_current] at hu
    obtain rfl := Host.Outcome.next.inj hu
    have hframe := ((startCycle_frame s).trans (emit_frame _ (.unknownOpcode (fetched s)))).trans (tick_frame _)
    exact ⟨rfl, .inr (.inr ⟨rfl, hpc, rfl, hframe.weaken (by simp)⟩)⟩

/-- Settles O11: the fetched cycle, with the start and the tick written out. -/
theorem stepRunsTheDecodedInstruction : Obligations.StepRunsTheDecodedInstruction := by
  intro s hi lo i hn hpc hhi hlo hdecode
  have hcurrent : current s = i := by rw [← hdecode, ← hhi, ← hlo]; rfl
  have hstart : s.startCycle = { s with diag := none, pc := s.pc + 2 } := rfl
  rw [step_fetched ⟨hn, hpc⟩, hcurrent, hstart]
  cases exec i { s with diag := none, pc := s.pc + 2 } <;> rfl

/-- Settles O12: the latch is looked at before anything else. -/
theorem haltedCoreHasNoStep : Obligations.HaltedCoreHasNoStep := fun _ _ h => step_halted h

end Sys2Proof.Proofs

/-! SUPPORT. Proofs of the family 41_display.md. The drawing unit's laws (Laws/Draw.lean) speak of the row
bytes it is given; here they are said of the sprite at I (`spriteCovers`). Then Dxyn has one equation where the
sprite fits and one where it does not, and each statement is read off the drawn canvas. -/

namespace Sys2Proof.Safety

open Sys2Proof.Machine

/-! ### The sprite at I -/

/-- A sprite does not fit exactly where a row has no memory cell (rule R107). -/
theorem not_spriteFits_iff {s : State} {n : Nibble} :
    ¬ SpriteFits s n ↔ 0 < n.toNat ∧ 0xFFF < s.I.toNat + n.toNat - 1 := by
  unfold SpriteFits
  omega

theorem spriteBit_iff {row : Byte} {c : Nat} : spriteBit row c = true ↔ row &&& (0x80#8 >>> c) ≠ 0 :=
  bne_iff_ne

/-- The row bytes read at I cover what the sprite covers (rule R106). -/
theorem rowsCover_spriteBytes {s : State} {x y : RegIdx} {n : Nibble} {px : Fin Config.dispW}
    {py : Fin Config.dispH} :
    RowsCover (s.getV x) (s.getV y) 0 (s.spriteBytes s.I n.toNat 0) px py ↔ spriteCovers s x y n px py := by
  have hbyte : ∀ r (h : r < (s.spriteBytes s.I n.toNat 0).length),
      (s.spriteBytes s.I n.toNat 0)[r] = s.readByte (BitVec.ofNat 12 (s.I.toNat + r)) := by
    intro r h
    rw [State.spriteBytes_length] at h
    rw [s.spriteBytes_getElem s.I n.toNat 0 r h, Nat.zero_add, BitVec.ofNat_add, BitVec.ofNat_toNat,
      BitVec.setWidth_eq]
  constructor
  · rintro ⟨r, hr, hpy, c, -, hc, hbit, hpx⟩
    rw [hbyte, spriteBit_iff] at hbit
    rw [State.spriteBytes_length] at hr
    rw [Nat.zero_add] at hpy hc
    exact ⟨r, c, hr, hc, hbit, congrArg Fin.val hpx, congrArg Fin.val hpy⟩
  · rintro ⟨r, c, hr, hc, hbit, hpx, hpy⟩
    have hlen : r < (s.spriteBytes s.I n.toNat 0).length := by rwa [State.spriteBytes_length]
    refine ⟨r, hlen, ?_, c, Nat.zero_le c, by rwa [Nat.zero_add], ?_, Fin.ext hpx⟩
    · rw [Nat.zero_add]; exact Fin.ext hpy
    · rwa [hbyte, spriteBit_iff]

/-- What a sprite covers rests on its coordinates, I and memory alone. -/
theorem spriteCovers_congr {s t : State} {x y : RegIdx} {n : Nibble} (hx : t.getV x = s.getV x)
    (hy : t.getV y = s.getV y) (hI : t.I = s.I) (hmem : ∀ a, t.readByte a = s.readByte a)
    (px : Fin 64) (py : Fin 32) : spriteCovers t x y n px py ↔ spriteCovers s x y n px py := by
  simp only [spriteCovers, hx, hy, hI, hmem]

/-! ### The drawn canvas -/

theorem spriteBytes_length_le (s : State) (n : Nibble) : (s.spriteBytes s.I n.toNat 0).length ≤ 32 := by
  have := n.isLt
  rw [State.spriteBytes_length]
  omega

/-- Dxyn flips the pixels its sprite covers, and no other (rule R106). -/
theorem drawn_pixel (x y : RegIdx) (n : Nibble) (s : State) (px : Fin Config.dispW) (py : Fin Config.dispH) :
    (drawn x y n s).display.pixel px py = true ↔
      (s.display.pixel px py = true ↔ ¬ spriteCovers s x y n px py) := by
  rw [drawn, Canvas.drawRows_pixel _ _ _ _ _ (spriteBytes_length_le s n), rowsCover_spriteBytes]

/-- Dxyn collides where its sprite covers a lit pixel (rule R106). -/
theorem drawn_hit (x y : RegIdx) (n : Nibble) (s : State) :
    (drawn x y n s).hit = true ↔ ∃ px py, spriteCovers s x y n px py ∧ s.display.pixel px py = true := by
  rw [drawn, Canvas.drawRows_hit _ _ _ _ _ (spriteBytes_length_le s n)]
  simp only [rowsCover_spriteBytes, Bool.false_eq_true, false_or]

/-! ### The state Dxyn leaves -/

/-- The state Dxyn completes with (rule R106). -/
def afterDrw (x y : RegIdx) (n : Nibble) (s : State) : State :=
  (s.setDisplay (drawn x y n s).display).setVF (drawn x y n s).hit

@[simp] theorem afterDrw_display (x y : RegIdx) (n : Nibble) (s : State) :
    (afterDrw x y n s).display = (drawn x y n s).display := rfl

theorem afterDrw_VF (x y : RegIdx) (n : Nibble) (s : State) :
    (afterDrw x y n s).getV 0xF = collisionFlag (drawn x y n s).hit := by
  rw [afterDrw, State.getV_setVF, if_pos rfl]

theorem afterDrw_frame (x y : RegIdx) (n : Nibble) (s : State) :
    UnchangedBut [.display, .v 0xF] s (afterDrw x y n s) :=
  (setDisplay_frame s _).trans (setV_frame _ regF _)

/-- Where the sprite fits, Dxyn completes (rule R106). -/
theorem exec_drw_fits {s : State} {n : Nibble} (x y : RegIdx) (h : SpriteFits s n) :
    exec (.drw x y n) s = .next (afterDrw x y n s) :=
  exec_drw_in x y fun hout => not_spriteFits_iff.2 hout h

theorem afterDrw_VF_hit {x y : RegIdx} {n : Nibble} {s : State}
    (h : ∃ px py, spriteCovers s x y n px py ∧ s.display.pixel px py = true) :
    (afterDrw x y n s).getV 0xF = 1 := by
  rw [afterDrw_VF, (drawn_hit x y n s).2 h]; rfl

theorem afterDrw_VF_miss {x y : RegIdx} {n : Nibble} {s : State}
    (h : ¬ ∃ px py, spriteCovers s x y n px py ∧ s.display.pixel px py = true) :
    (afterDrw x y n s).getV 0xF = 0 := by
  rw [afterDrw_VF, Bool.eq_false_iff.2 (mt (drawn_hit x y n s).1 h)]; rfl

/-- A draw with x, y other than F leaves what the sprite covers, so that a second one meets the same sprite. -/
theorem spriteCovers_afterDrw {x y : RegIdx} (hx : x ≠ 0xF) (hy : y ≠ 0xF) (n : Nibble) (s : State)
    (px : Fin 64) (py : Fin 32) : spriteCovers (afterDrw x y n s) x y n px py ↔ spriteCovers s x y n px py :=
  have hframe := afterDrw_frame x y n s
  spriteCovers_congr (hframe (.v x) (by simpa using hx)) (hframe (.v y) (by simpa using hy))
    (hframe .i (by simp)) (fun a => hframe (.mem a) (by simp)) px py

/-- Flipping the same pixels twice restores them. -/
theorem drawn_afterDrw_display {x y : RegIdx} (hx : x ≠ 0xF) (hy : y ≠ 0xF) (n : Nibble) (s : State) :
    (drawn x y n (afterDrw x y n s)).display = s.display := by
  refine Display.ext_pixel fun px py => Bool.eq_iff_iff.2 ?_
  rw [drawn_pixel, spriteCovers_afterDrw hx hy, afterDrw_display, drawn_pixel]
  by_cases hc : spriteCovers s x y n px py <;> simp [hc]

end Sys2Proof.Safety

/-! The statements of the family 41_display.md. -/

namespace Sys2Proof.Proofs

open Sys2Proof Sys2Proof.Machine Sys2Proof.Safety

/-- Settles O27: the drawn canvas pixel by pixel, its collision, and the frame of the two writes. -/
theorem drwXorsTheSprite : Obligations.DrwXorsTheSprite := by
  refine ⟨encodes_drw, fun x y n s hfit => ?_, fun x y n s hfit => ?_⟩
  · exact ⟨_, exec_drw_fits x y hfit, drawn_pixel x y n s, afterDrw_VF_hit, afterDrw_VF_miss,
      afterDrw_frame x y n s⟩
  · exact ⟨_, exec_drw_out x y (not_spriteFits_iff.1 hfit)⟩

/-- Settles O29: the canvas is a function of the values the coordinate registers hold before the
instruction, whichever registers hold them. -/
theorem drwReadsItsOperandsFirst : Obligations.DrwReadsItsOperandsFirst := by
  intro x y x' y' n s hfit hx hy
  have hdrawn : drawn x y n s = drawn x' y' n s := by rw [drawn, drawn, hx, hy]
  refine ⟨_, _, exec_drw_fits x y hfit, exec_drw_fits x' y' hfit, ?_, ?_⟩
  · rw [afterDrw_display, afterDrw_display, hdrawn]
  · rw [afterDrw_VF, afterDrw_VF, hdrawn]

/-- Settles O30: the second draw flips the same pixels again; from a clear display, the pixels lit at the
second draw are those the first one covered. -/
theorem drawingTwiceRestoresTheDisplay : Obligations.DrawingTwiceRestoresTheDisplay := by
  intro x y n s hfit hx hy
  refine ⟨_, _, exec_drw_fits x y hfit, exec_drw_fits x y (s := afterDrw x y n s) hfit,
    drawn_afterDrw_display hx hy n s, fun hclear => ⟨afterDrw_VF_miss ?_, ?_⟩⟩
  · rintro ⟨px, py, -, hlit⟩
    exact Bool.false_ne_true ((hclear px py).symm.trans hlit)
  · rintro ⟨px, py, hc⟩
    have hlit : (afterDrw x y n s).display.pixel px py = true :=
      (drawn_pixel x y n s px py).2 (by simp [hclear px py, hc])
    exact afterDrw_VF_hit ⟨px, py, (spriteCovers_afterDrw hx hy n s px py).2 hc, hlit⟩

/-- Settles O26, by the pixels of the cleared display and the frame of the one write. -/
theorem clsClearsTheDisplay : Obligations.ClsClearsTheDisplay :=
  ⟨encodes_cls, fun s => ⟨_, exec_cls s, Display.pixel_clear, setDisplay_frame s _⟩⟩

/-- Settles O28: out of memory Dxyn latches the condition alone, and in memory it completes. -/
theorem drwStopsBeyondMemory : Obligations.DrwStopsBeyondMemory := by
  refine fun x y n s => ⟨fun hout => exec_drw_out x y hout, fun hin f hf => ?_⟩
  rw [exec_drw_in x y hin] at hf
  exact nomatch hf

end Sys2Proof.Proofs

/-! SUPPORT. Proofs of the family 42_control_transfer.md. A cycle that fetches 1nnn, 2nnn or 00EE has one
equation each: the start of the cycle, the instruction's writes, and the tick. -/

namespace Sys2Proof.Safety

open Sys2Proof.Machine

/-! ### Cycles of control transfer -/

/-- A fetched cycle whose instruction completes ticks the state the instruction leaves (rule R96). -/
theorem step_of_exec_next {s u : State} (hf : Fetches s) (hu : exec (current s) s.startCycle = .next u) :
    step s = .next u.tick := by rw [step_fetched hf, hu]; rfl

theorem step_jp {s : State} {nnn : Addr} (hf : Fetches s) (hi : current s = .jp nnn) :
    step s = .next (s.startCycle.setPc nnn).tick :=
  step_of_exec_next hf (by rw [hi, exec_jp])

theorem step_call {s : State} {nnn : Addr} (hf : Fetches s) (hi : current s = .call nnn) :
    step s = .next ((s.startCycle.push (s.pc + 2)).setPc nnn).tick :=
  step_of_exec_next hf (by rw [hi, exec_call, State.startCycle_pc])

theorem step_ret {s : State} {a : Addr} {l : List Addr} (hf : Fetches s) (hi : current s = .ret)
    (hs : s.stack = a :: l) : step s = .next ((s.startCycle.setStack l).setPc a).tick :=
  step_of_exec_next hf (by rw [hi, exec_ret_cons (s := s.startCycle) hs])

/-- The frame of 00EE and of 2nnn, whose push is a write of the stack (rule R39). -/
theorem setStack_setPc_frame (s : State) (a : Addr) (l : List Addr) :
    UnchangedBut [.pc, .stack] s ((s.setStack l).setPc a) :=
  ((setStack_frame s l).trans (setPc_frame _ a)).weaken (by simp)

/-! ### The idle state -/

/-- Timers at 0 stay there (rule R96). -/
theorem tick_of_timers_zero {s : State} (hd : s.delayTimer = 0) (hs : s.soundTimer = 0) : s.tick = s := by
  have hdelay : tickByte s.delayTimer = s.delayTimer := by rw [hd]; rfl
  have hsound : tickByte s.soundTimer = s.soundTimer := by rw [hs]; rfl
  rw [State.tick, hdelay, hsound]
  rfl

/-- An idle cycle jumps back over its advance and ticks nothing, so it clears the diagnostic alone (rules
R111, R186). -/
theorem step_idle {s : State} (h : Idle s) : step s = .next s.clearDiag := by
  obtain ⟨hf, hjp, hdelay, hsound⟩ := h
  have hback : s.startCycle.setPc s.pc = s.clearDiag := rfl
  rw [step_jp hf hjp, hback, tick_of_timers_zero (s := s.clearDiag) hdelay hsound]

/-- Idleness does not look at the diagnostic. -/
theorem idle_clearDiag {s : State} (h : Idle s) : Idle s.clearDiag := h

end Sys2Proof.Safety

/-! The statements of the family 42_control_transfer.md. -/

namespace Sys2Proof.Proofs

open Sys2Proof Sys2Proof.Machine Sys2Proof.Safety

/-- Settles O34: the call leaves the advanced pc above the old stack, which the return pops. -/
theorem callThenReturnComesBack : Obligations.CallThenReturnComesBack := by
  intro s u nnn hfs hcall hfu hret
  refine ⟨_, step_call hfs hcall, rfl, fun hstack => ?_⟩
  have hpushed : u.stack = (s.pc + 2) :: s.stack := hstack
  exact ⟨_, step_ret hfu hret hpushed, advance_toNat hfs.2, rfl⟩

/-- Settles O31: one case per form of the stack, the pop and the underflow. -/
theorem retPopsOrUnderflows : Obligations.RetPopsOrUnderflows :=
  ⟨encodes_ret, fun s a rest h => ⟨_, exec_ret_cons h, rfl, rfl, setStack_setPc_frame s a rest⟩,
    fun _ h => exec_ret_nil h⟩

/-- Settles O32, by the frame of the one write. -/
theorem jpSetsPc : Obligations.JpSetsPc :=
  ⟨encodes_jp, fun nnn s => ⟨_, exec_jp nnn s, rfl, setPc_frame s nnn⟩⟩

/-- Settles O33: no stack is full, and the frame is that of 00EE. -/
theorem callPushesAndJumps : Obligations.CallPushesAndJumps :=
  ⟨encodes_call, fun nnn s => ⟨_, exec_call nnn s, rfl, rfl, setStack_setPc_frame s nnn (s.pc :: s.stack)⟩⟩

/-- Settles O59: the cycle clears the diagnostic, at which idleness does not look. -/
theorem idleMachineStaysIdle : Obligations.IdleMachineStaysIdle := fun s h =>
  ⟨_, step_idle h, idle_clearDiag h, rfl, clearDiag_frame s⟩

end Sys2Proof.Proofs

/-! SUPPORT. Proofs of the family 43_skips.md. The six skips share one action: where an instruction has a skip
condition (`skipCondition`), it completes with `skipIf` of it. What that leaves in pc is said once, for the
instruction and for its cycle; and the skips are, beside 1nnn, 2nnn and 00EE, all that write pc. -/

namespace Sys2Proof.Safety

open Sys2Proof.Machine

/-! ### The skip action -/

/-- The pc that a skip leaves, with its condition as a proposition (rules R115, R123). -/
theorem skipIf_pc_toNat {c : Bool} {P : Prop} [Decidable P] (h : c = true ↔ P) (s : State) :
    (skipIf c s).pc.toNat = if P then (s.pc.toNat + 2) % 4096 else s.pc.toNat := by
  simp only [skipIf_pc, h]
  split
  · exact BitVec.toNat_add s.pc 2
  · rfl

/-- The skip moved pc exactly if its condition holds: pc + 2 is never pc, wrapped or not. -/
theorem skipIf_pc_eq_iff {c : Bool} {s : State} : (skipIf c s).pc = s.pc + 2 ↔ c = true := by
  cases c <;> simp [skipIf_pc]

/-- Of two skips with opposite conditions exactly one is taken (rules R117, R121). -/
theorem skipIf_taken_iff_not_taken (c : Bool) (s : State) :
    (skipIf c s).pc = s.pc + 2 ↔ (skipIf (!c) s).pc ≠ s.pc + 2 := by
  rw [Ne, skipIf_pc_eq_iff, skipIf_pc_eq_iff]
  cases c <;> decide

/-! ### Instructions with a skip condition -/

/-- SKP and SKNP complete only with the index of a key (rule R122). -/
theorem keyIndex_lt_of_next {x : RegIdx} {s t : State}
    (h : exec (.skp x) s = .next t ∨ exec (.sknp x) s = .next t) : (s.getV x).toNat < 16 := by
  refine Nat.not_le.1 fun hk => ?_
  rw [exec_skp_out hk, exec_sknp_out hk] at h
  rcases h with h | h <;> exact nomatch h

/-- An instruction with a skip condition is the skip action on it (rules R116 to R121). -/
theorem exec_of_skipCondition {i : Instr} {s : State} {b : Bool} (h : skipCondition s i = some b) :
    exec i s = .next (skipIf b s) := by
  cases i with
  | seImm x nn | seReg x y => cases h; rfl
  | sneImm x nn | sneReg x y => cases h; rw [decide_not]; rfl
  | skp x =>
    obtain ⟨hk, hb⟩ := Option.dite_none_right_eq_some.1 h
    rw [exec_skp_in hk, Option.some.inj hb]
  | sknp x =>
    obtain ⟨hk, hb⟩ := Option.dite_none_right_eq_some.1 h
    rw [exec_sknp_in hk, Option.some.inj hb]
  | _ => exact nomatch h

/-- An instruction that completes and writes pc is 1nnn, 2nnn or 00EE, or a skip with a condition (rule
R39). -/
theorem exec_writes_pc_cases {i : Instr} {s t : State} (h : exec i s = .next t) (hw : Part.pc ∈ writes i) :
    (∃ nnn, i = .jp nnn ∨ i = .call nnn) ∨ i = .ret ∨ ∃ b, skipCondition s i = some b := by
  cases i with
  | jp nnn => exact .inl ⟨nnn, .inl rfl⟩
  | call nnn => exact .inl ⟨nnn, .inr rfl⟩
  | ret => exact .inr (.inl rfl)
  | seImm | sneImm | seReg | sneReg => exact .inr (.inr ⟨_, rfl⟩)
  | skp x => exact .inr (.inr ⟨_, dif_pos (keyIndex_lt_of_next (.inl h))⟩)
  | sknp x => exact .inr (.inr ⟨_, dif_pos (keyIndex_lt_of_next (.inr h))⟩)
  | _ => simp [writes] at hw

/-! ### Cycles of skips -/

/-- The condition looks at registers and keys, which the start of the cycle leaves. -/
theorem skipCondition_startCycle (s : State) (i : Instr) : skipCondition s.startCycle i = skipCondition s i := by
  cases i <;> rfl

/-- The state that a cycle of a skip leaves (rule R115). -/
def afterSkip (b : Bool) (s : State) : State := (skipIf b s.startCycle).tick

/-- A cycle of a skip completes (rules R94 to R96, R115). -/
theorem step_skip {s : State} {b : Bool} (hf : Fetches s) (hb : skipCondition s (current s) = some b) :
    step s = .next (afterSkip b s) :=
  step_of_exec_next hf (exec_of_skipCondition ((skipCondition_startCycle s _).trans hb))

theorem afterSkip_pc (b : Bool) (s : State) : (afterSkip b s).pc = s.pc + if b then 4 else 2 := by
  rw [afterSkip, State.tick_pc, skipIf_pc, State.startCycle_pc]
  cases b with
  | false => rfl
  | true => exact BitVec.add_assoc s.pc 2 2

theorem afterSkip_pc_toNat (b : Bool) (s : State) :
    (afterSkip b s).pc.toNat = (s.pc.toNat + if b then 4 else 2) % 4096 := by
  rw [afterSkip_pc, BitVec.toNat_add]
  cases b <;> rfl

theorem afterSkip_diag (b : Bool) (s : State) : (afterSkip b s).diag = none := by
  rw [afterSkip, State.tick_diag, skipIf_eq, State.setPc_diag, State.startCycle_diag]

theorem afterSkip_frame (b : Bool) (s : State) :
    UnchangedBut [.pc, .delayTimer, .soundTimer, .diag] s (afterSkip b s) :=
  (((startCycle_frame s).trans (skipIf_frame b _)).trans (tick_frame _)).weaken (by simp)

/-- A skip ends below its own address only if it is taken and its last two addresses wrap (rule R123). -/
theorem taken_at_top_of_afterSkip_pc_lt {b : Bool} {s : State} (hf : Fetches s)
    (h : (afterSkip b s).pc.toNat < s.pc.toNat) : b = true ∧ (s.pc = 0xFFC ∨ s.pc = 0xFFD) := by
  have hpc := hf.2
  rw [afterSkip_pc_toNat] at h
  cases b with
  | false =>
    simp only [Bool.false_eq_true, if_false] at h
    omega
  | true =>
    simp only [if_true] at h
    have htop : s.pc.toNat = 0xFFC ∨ s.pc.toNat = 0xFFD := by omega
    exact ⟨rfl, htop.imp (BitVec.eq_of_toNat_eq ·) (BitVec.eq_of_toNat_eq ·)⟩

/-- A word fetched from the reserved area is 0x0000, unimplemented (rules R21, R76). -/
theorem current_reserved {s : State} (hs : Inv s) (hpc : s.pc.toNat < 0x1FF) : current s = .unimplAny 0x0000 := by
  have hnext : (s.pc + 1).toNat = s.pc.toNat + 1 :=
    BitVec.toNat_add_of_lt (show s.pc.toNat + 1 < 2 ^ 12 by omega)
  have hhi : s.readByte s.pc = 0 := hs.lowZero _ (by omega)
  have hlo : s.readByte (s.pc + 1) = 0 := hs.lowZero _ (by omega)
  rw [current, fetched, hhi, hlo]
  rfl

end Sys2Proof.Safety

/-! The statements of the family 43_skips.md. -/

namespace Sys2Proof.Proofs

open Sys2Proof Sys2Proof.Machine Sys2Proof.Safety

/-- Settles O35, by the state that the cycle of a skip leaves. -/
theorem skipsAdvanceByFourOrTwo : Obligations.SkipsAdvanceByFourOrTwo := fun s b hf hb =>
  ⟨_, step_skip hf hb, afterSkip_pc_toNat b s, afterSkip_diag b s, afterSkip_frame b s⟩

/-- Settles O43: a taken skip adds 4, which wraps into the reserved area; and a cycle that lowers pc wrote it
after the advance, where the writers are 1nnn, 2nnn, 00EE and the skips. -/
theorem skipAtTheTopOfMemoryWraps : Obligations.SkipAtTheTopOfMemoryWraps := by
  refine ⟨fun s hf hb => ?_, fun s t hstep hlt => ?_⟩
  · have hstep := step_skip hf hb
    have hpc := afterSkip_pc true s
    refine ⟨fun h => ?_, fun h => ?_⟩
    all_goals
      rw [h] at hpc
      refine ⟨_, hstep, hpc, fun hs => current_reserved (stepKeepsInvariant s _ hs hstep) ?_⟩
      rw [hpc]
      decide
  · obtain ⟨hn, ⟨-, rfl⟩ | ⟨hpc, u, hu, rfl⟩⟩ := step_next_cases hstep
    · exact absurd hlt (Nat.lt_irrefl _)
    have hf : Fetches s := ⟨hn, hpc⟩
    by_cases hw : Part.pc ∈ writes (current s)
    · rcases exec_writes_pc_cases hu hw with hjump | hret | ⟨b, hb⟩
      · exact .inl hjump
      · exact .inr (.inl hret)
      · rw [skipCondition_startCycle] at hb
        have heq := Host.Outcome.next.inj (hstep.symm.trans (step_skip hf hb))
        rw [heq] at hlt
        obtain ⟨rfl, htop⟩ := taken_at_top_of_afterSkip_pc_lt hf hlt
        exact .inr (.inr ⟨hb, htop⟩)
    · have hadv := sequentialInstructionsAdvanceByTwo s _ hf hstep hw
      omega

/-- Settles O36, by the skip action on unsigned equality. -/
theorem seImmSkipsIfEqual : Obligations.SeImmSkipsIfEqual :=
  ⟨encodes_seImm, fun x nn s => ⟨_, exec_seImm x nn s, skipIf_pc_toNat beq_iff_eq s, skipIf_frame _ s⟩⟩

/-- Settles O37: the conditions of 3xnn and 4xnn are each other's negation. -/
theorem sneImmSkipsIfDifferent : Obligations.SneImmSkipsIfDifferent :=
  ⟨encodes_sneImm, fun x nn s => ⟨_, exec_sneImm x nn s, skipIf_pc_toNat bne_iff_ne s, skipIf_frame _ s,
    _, exec_seImm x nn s, skipIf_taken_iff_not_taken _ s⟩⟩

/-- Settles O38: a register equals itself, so x = y skips always. -/
theorem seRegSkipsIfEqual : Obligations.SeRegSkipsIfEqual := by
  refine ⟨encodes_seReg, fun w h hn => ?_, fun x y s => ?_⟩
  · exact (decodeWord_top5 (fieldTop_of_mask h (by decide))).trans (if_neg (fieldN_ne_of_mask hn))
  · refine ⟨_, exec_seReg x y s, skipIf_pc_toNat beq_iff_eq s, fun hxy => ?_, skipIf_frame _ s⟩
    exact skipIf_pc_eq_iff.2 (beq_iff_eq.2 (congrArg s.getV hxy))

/-- Settles O39: a register does not differ from itself, so x = y skips never. -/
theorem sneRegSkipsIfDifferent : Obligations.SneRegSkipsIfDifferent := by
  refine ⟨encodes_sneReg, fun w h hn => ?_, fun x y s => ?_⟩
  · exact (decodeWord_top9 (fieldTop_of_mask h (by decide))).trans (if_neg (fieldN_ne_of_mask hn))
  · refine ⟨_, exec_sneReg x y s, skipIf_pc_toNat bne_iff_ne s, fun hxy => ?_, skipIf_frame _ s⟩
    rw [hxy, bne_self_eq_false]
    rfl

/-- Settles O40, by the key index: below 16 the skip action on the key's flag, from 16 on the condition. -/
theorem skpSkipsIfKeyDown : Obligations.SkpSkipsIfKeyDown :=
  ⟨encodes_skp, fun _ s =>
    ⟨fun hk => ⟨_, exec_skp_in hk, skipIf_pc_toNat Iff.rfl s, skipIf_frame _ s⟩,
      fun hk => ⟨_, exec_skp_out hk⟩⟩⟩

/-- Settles O41: below 16 the skip action on the key's flag negated, which is the opposite of Ex9E's. -/
theorem sknpSkipsIfKeyUp : Obligations.SknpSkipsIfKeyUp :=
  ⟨encodes_sknp, fun _ s =>
    ⟨fun hk => ⟨_, exec_sknp_in hk, skipIf_pc_toNat Bool.not_eq_eq_eq_not s, skipIf_frame _ s,
      _, exec_skp_in hk, skipIf_taken_iff_not_taken _ s⟩,
      fun hk => ⟨_, exec_sknp_out hk⟩⟩⟩

/-- Settles O42: the condition is raised on the state that the start of the cycle leaves. -/
theorem keyIndexOutOfRangeIsFatal : Obligations.KeyIndexOutOfRangeIsFatal := by
  intro x s hf hi hk
  rw [step_fetched hf]
  rcases hi with hi | hi <;> rw [hi]
  · rw [exec_skp_out (s := s.startCycle) hk]; rfl
  · rw [exec_sknp_out (s := s.startCycle) hk]; rfl

end Sys2Proof.Proofs

/-! SUPPORT. Proofs of the family 44_register_ops.md. Each instruction is one write of V[x] or of I; only Cxnn
has a second one, of the model's own count of draws, which no register sees. -/

namespace Sys2Proof.Safety

open Sys2Proof.Machine

/-! ### The state Cxnn leaves -/

/-- The masked byte is the one of the count before the draw (rules R128, R130). -/
theorem getV_setV_rnd_nextDraw (x : RegIdx) (nn : Byte) (s : State) :
    ((s.setV x (s.rnd &&& nn)).nextDraw).getV x = Config.rndByte s.draws &&& nn := by
  rw [State.getV_nextDraw, State.getV_setV_same, State.rnd]

/-- The frame of Cxnn (rule R39). -/
theorem setV_nextDraw_frame (x : RegIdx) (v : Byte) (s : State) :
    UnchangedBut [.v x, .draws] s (s.setV x v).nextDraw :=
  (setV_frame s x v).trans (nextDraw_frame _)

end Sys2Proof.Safety

/-! The statements of the family 44_register_ops.md. -/

namespace Sys2Proof.Proofs

open Sys2Proof Sys2Proof.Machine Sys2Proof.Safety

/-- Settles O44: the write of V[x] treats VF as any register. -/
theorem ldImmLoadsTheImmediate : Obligations.LdImmLoadsTheImmediate :=
  ⟨encodes_ldImm, fun x nn s => ⟨_, exec_ldImm x nn s, State.getV_setV_same s x nn, setV_frame s x nn⟩⟩

/-- Settles O45: the sum is written to V[x], and the frame of that write holds VF with x not F. -/
theorem addImmAddsModulo256 : Obligations.AddImmAddsModulo256 := by
  refine ⟨encodes_addImm, fun x nn s => ⟨_, exec_addImm x nn s, ?_, setV_frame s x _⟩⟩
  rw [State.getV_setV_same, addByte_toNat]

/-- Settles O46, by the frame of the one write. -/
theorem ldILoadsTheIndex : Obligations.LdILoadsTheIndex :=
  ⟨encodes_ldI, fun nnn s => ⟨_, exec_ldI nnn s, rfl, setI_frame s nnn⟩⟩

/-- Settles O47: the masked byte is a value for every mask, and the masks 0x00 and 0xFF are the zero and the
unit of AND. -/
theorem rndMasksTheRandomByte : Obligations.RndMasksTheRandomByte := by
  refine ⟨encodes_rnd, fun x nn s => ?_⟩
  have hval := getV_setV_rnd_nextDraw x nn s
  refine ⟨_, exec_rnd x nn s, hval, rfl, fun h => ?_, fun h => ?_, setV_nextDraw_frame x _ s⟩
  · rw [hval, h]
    exact BitVec.and_zero
  · rw [hval, h, byte_and_FF]

/-- Settles O48: the index adder's sum, and the frame of the one write, which holds every register. -/
theorem addIAddsModulo4096 : Obligations.AddIAddsModulo4096 :=
  ⟨encodes_addI, fun x s => ⟨_, exec_addI x s, addIndex_toNat s.I (s.getV x), setI_frame s _⟩⟩

end Sys2Proof.Proofs

/-! SUPPORT. Proofs of the family 45_timer_access.md. A cycle that fetches Fx07, Fx15 or Fx18 has one equation:
the start of the cycle, the one write, and the tick after it; and the sound output is read off the ticked
timer. -/

namespace Sys2Proof.Safety

open Sys2Proof.Machine

/-! ### Cycles of timer access -/

/-- The timer is read at the start of the cycle, before its tick (rules R135, R138). -/
theorem step_ldVxDT {x : RegIdx} {s : State} (hf : Fetches s) (hi : current s = .ldVxDT x) :
    step s = .next (s.startCycle.setV x s.delayTimer).tick :=
  step_of_exec_next hf (by rw [hi, exec_ldVxDT, State.startCycle_delayTimer])

theorem step_ldDTVx {x : RegIdx} {s : State} (hf : Fetches s) (hi : current s = .ldDTVx x) :
    step s = .next (s.startCycle.setDelayTimer (s.getV x)).tick :=
  step_of_exec_next hf (by rw [hi, exec_ldDTVx, State.getV_startCycle])

theorem step_ldSTVx {x : RegIdx} {s : State} (hf : Fetches s) (hi : current s = .ldSTVx x) :
    step s = .next (s.startCycle.setSoundTimer (s.getV x)).tick :=
  step_of_exec_next hf (by rw [hi, exec_ldSTVx, State.getV_startCycle])

/-! ### The sound output -/

/-- The output is active while the timer has not run down (rule R33). -/
theorem soundActive_iff {s : State} : soundActive s = true ↔ 0 < s.soundTimer.toNat := by
  rw [soundActive, bne_iff_ne, Nat.pos_iff_ne_zero]
  exact not_congr BitVec.toNat_eq

/-- Behind the tick the output is active only for a timer above 1 (rules R33, R138). -/
theorem soundActive_tick_iff {s : State} : soundActive s.tick = true ↔ 1 < s.soundTimer.toNat := by
  rw [soundActive_iff, State.tick_soundTimer, tickByte_toNat, Nat.sub_pos_iff_lt]

end Sys2Proof.Safety

/-! The statements of the family 45_timer_access.md. -/

namespace Sys2Proof.Proofs

open Sys2Proof Sys2Proof.Machine Sys2Proof.Safety

/-- Settles O49: the tick comes after the read and leaves V[x]. -/
theorem fx07ReadsTheDelayTimer : Obligations.Fx07ReadsTheDelayTimer := by
  refine ⟨encodes_ldVxDT, fun x s => ?_, fun x s hf hi => ⟨_, step_ldVxDT hf hi, ?_, tickByte_toNat _⟩⟩
  · exact ⟨_, exec_ldVxDT x s, State.getV_setV_same s x _, setV_frame s x _⟩
  · rw [State.getV_tick, State.getV_setV_same]

/-- Settles O50: the tick takes the value just written. -/
theorem fx15SetsTheDelayTimer : Obligations.Fx15SetsTheDelayTimer :=
  ⟨encodes_ldDTVx, fun x s => ⟨_, exec_ldDTVx x s, rfl, setDelayTimer_frame s _⟩,
    fun _ _ hf hi => ⟨_, step_ldDTVx hf hi, tickByte_toNat _⟩⟩

/-- Settles O51: the tick takes the value just written, so that the output is read off V[x] - 1. -/
theorem fx18SetsTheSoundTimer : Obligations.Fx18SetsTheSoundTimer :=
  ⟨encodes_ldSTVx, fun x s => ⟨_, exec_ldSTVx x s, rfl, setSoundTimer_frame s _⟩,
    fun _ _ hf hi => ⟨_, step_ldSTVx hf hi, tickByte_toNat _, soundActive_tick_iff⟩⟩

end Sys2Proof.Proofs

/-! SUPPORT. Proofs of the family 46_unimplemented.md. Every word outside the nineteen rows has one meaning: on the
instruction alone (`exec_decodeWord_unimplemented`) and on its cycle (`step_unimplemented`). What is left is which
words are such: those no implemented row selects, those of the seven named groups, and the zero word. -/

namespace Sys2Proof.Safety

open Sys2Proof.Machine

/-! ### Words outside the nineteen rows -/

/-- A word that no implemented row selects decodes to an unimplemented instruction (rules R74, R140). -/
theorem decodeWord_unimplemented_of_no_row {w : Word} (h : ∀ r ∈ implementedRows, w &&& r.mask ≠ r.pat) :
    (decodeWord w).implemented = false := by
  refine Bool.eq_false_iff.2 fun hi => ?_
  obtain ⟨r, hr, hsel⟩ := (Proofs.decoderFollowsTheOpcodeTable w).2.1 hi
  exact h r hr (selects_iff.1 hsel)

theorem namedUnimplementedRows_not_implemented : ∀ r ∈ namedUnimplementedRows, r ∉ implementedRows := by decide

/-- A word of a named group decodes to an unimplemented instruction (rule R141). -/
theorem decodeWord_unimplemented_of_named {r : OpcodeRow} {w : Word} (hr : r ∈ namedUnimplementedRows)
    (hsel : r.selects w = true) : (decodeWord w).implemented = false := by
  refine Bool.eq_false_iff.2 fun hi => namedUnimplementedRows_not_implemented r hr ?_
  rwa [implemented_iff_row_mem, row_decodeWord_of_selects r (List.mem_append_right _ hr) w hsel] at hi

/-! ### The fallback and its cycle -/

/-- The raw word of the diagnostic is the word decoded (rules R81, R140). -/
theorem exec_decodeWord_unimplemented {w : Word} (s : State) (h : (decodeWord w).implemented = false) :
    exec (decodeWord w) s = .next (s.emit (.unknownOpcode w)) := by
  rw [exec_unimplemented s h, encode_decodeWord]

/-- The state that a cycle of the fallback leaves (rule R140). -/
def afterFallback (s : State) : State := (s.startCycle.emit (.unknownOpcode (fetched s))).tick

theorem step_unimplemented {s : State} (hf : Fetches s) (h : (current s).implemented = false) :
    step s = .next (afterFallback s) :=
  step_of_exec_next hf (exec_decodeWord_unimplemented s.startCycle h)

theorem afterFallback_frame (s : State) :
    UnchangedBut [.pc, .delayTimer, .soundTimer, .diag, .events] s (afterFallback s) :=
  (((startCycle_frame s).trans (emit_frame _ _)).trans (tick_frame _)).weaken (by simp)

theorem afterFallback_events (s : State) :
    (afterFallback s).events = s.events ++ [.unknownOpcode (fetched s)] := rfl

/-! ### Zeroed memory -/

/-- Zeroed memory holds the word 0x0000 at every address (rules R63, R144). -/
theorem fetched_zeroed {s : State} (hm : s.memory = []) : fetched s = 0x0000 := by
  have hread (a : Addr) : s.readByte a = 0 := by rw [State.readByte, hm, Memory.read_nil]
  rw [fetched, hread, hread]
  rfl

/-- A cycle on zeroed memory emits one diagnostic, as the fallback or, from 0xFFE on, as a skipped cycle
(rules R63, R92, R144). -/
theorem step_zeroed {s : State} (hm : s.memory = []) (hn : s.halted = none) :
    ∃ t, step s = .next t ∧ UnchangedBut [.pc, .delayTimer, .soundTimer, .diag, .events] s t ∧
      t.events.length = s.events.length + 1 := by
  rcases Nat.lt_or_ge s.pc.toNat 0xFFE with hpc | hpc
  · have hi : (current s).implemented = false := by rw [current, fetched_zeroed hm]; rfl
    refine ⟨_, step_unimplemented ⟨hn, hpc⟩ hi, afterFallback_frame s, ?_⟩
    rw [afterFallback_events, List.length_append, List.length_singleton]
  · refine ⟨_, step_skipped hn hpc, (emit_frame s _).weaken (by simp), ?_⟩
    rw [State.emit_events, List.length_append, List.length_singleton]

end Sys2Proof.Safety

/-! The statements of the family 46_unimplemented.md. -/

namespace Sys2Proof.Proofs

open Sys2Proof Sys2Proof.Machine Sys2Proof.Safety

/-- Settles O53: the cycle of the fallback, whose advance does not wrap below 0xFFE. -/
theorem fallbackCycleAdvancesTicksAndWarns : Obligations.FallbackCycleAdvancesTicksAndWarns := fun s hf hrows =>
  ⟨_, step_unimplemented hf (decodeWord_unimplemented_of_no_row hrows), advance_toNat hf.2,
    tickByte_toNat s.delayTimer, tickByte_toNat s.soundTimer, rfl, afterFallback_frame s⟩

/-- Settles O54: the seven groups are the named rows, whose words all execute the fallback. -/
theorem namedGroupsExecuteTheFallback : Obligations.NamedGroupsExecuteTheFallback := by
  intro w s hgroup
  have hnamed : ∃ r ∈ namedUnimplementedRows, r.selects w = true := by
    simpa [namedUnimplementedRows, selects_iff] using hgroup
  obtain ⟨r, hr, hsel⟩ := hnamed
  exact ⟨_, exec_decodeWord_unimplemented s (decodeWord_unimplemented_of_named hr hsel), rfl, emit_frame s _⟩

/-- Settles O55, by induction on the number of cycles: a cycle leaves memory zeroed and `halted` clear, so the
next one answers a next state too. -/
theorem zeroedMemoryNeverStops : Obligations.ZeroedMemoryNeverStops := by
  intro k s hm hn
  induction k generalizing s with
  | zero => exact ⟨s, core_run_zero s, UnchangedBut.refl _ s, rfl⟩
  | succ k ih =>
    obtain ⟨u, hstep, hframe, hlen⟩ := step_zeroed hm hn
    have hmu : u.memory = [] := (step_memory hstep).trans hm
    have hnu : u.halted = none := (hframe .halted (by simp)).trans hn
    obtain ⟨t, hrun, hframe', hlen'⟩ := ih u hmu hnu
    refine ⟨t, (core_run_succ hstep k).trans hrun, (hframe.trans hframe').weaken (by simp), ?_⟩
    rw [hlen', hlen, Nat.add_assoc, Nat.add_comm 1]

/-- Settles O52: the eight constructors share the fallback, and its frame is the outputs. -/
theorem unimplementedInstructionsOnlyWarn : Obligations.UnimplementedInstructionsOnlyWarn := fun _ s h =>
  ⟨_, exec_unimplemented s h, rfl, rfl, emit_frame s _⟩

end Sys2Proof.Proofs

/-! SUPPORT. Proofs of the family 60_exceptions.md. The fatal condition alone decides how an instruction ends
(`exec_of_fatalCondition_some`, `exec_of_fatalCondition_none`), and with it how its cycle ends: the start of the
cycle touches nothing that a fatal condition looks at (`fatalCondition_startCycle`). -/

namespace Sys2Proof.Safety

open Sys2Proof.Machine

/-! ### The fatal condition decides how an instruction ends -/

theorem exec_of_fatalCondition_some {i : Instr} {s : State} {c : FatalCause} (h : fatalCondition s i = some c) :
    exec i s = raise c s := by
  rcases exec_raises_or_completes i s with ⟨c', hc', hexec⟩ | ⟨hnone, -⟩
  · rwa [← Option.some.inj (hc'.symm.trans h)]
  · exact nomatch hnone.symm.trans h

theorem exec_of_fatalCondition_none {i : Instr} {s : State} (h : fatalCondition s i = none) :
    ∃ t, exec i s = .next t := by
  rcases exec_raises_or_completes i s with ⟨c, hc, -⟩ | ⟨-, hnext⟩
  · exact nomatch hc.symm.trans h
  · exact hnext

/-! ### The fatal condition decides how its cycle ends -/

/-- The advance of pc and the cleared diagnostic are no cause of a fatal condition (rules R94, R160 (4)). -/
theorem fatalCondition_startCycle (s : State) (i : Instr) :
    fatalCondition s.startCycle i = fatalCondition s i := by
  cases i <;> rfl

/-- A cycle whose instruction meets its fatal condition ends in the latch, without a tick (rule R99). -/
theorem step_of_fatalCondition_some {s : State} {c : FatalCause} (hf : Fetches s)
    (h : fatalCondition s (current s) = some c) : step s = raise c s.startCycle := by
  rw [step_fetched hf, exec_of_fatalCondition_some ((fatalCondition_startCycle s _).trans h)]
  rfl

/-- A cycle whose implemented instruction meets no fatal condition completes without a diagnostic (rules R97,
R160). -/
theorem step_of_fatalCondition_none {s : State} (hf : Fetches s) (hi : (current s).implemented = true)
    (h : fatalCondition s (current s) = none) : ∃ t, step s = .next t ∧ t.diag = none := by
  obtain ⟨u, hu⟩ := exec_of_fatalCondition_none ((fatalCondition_startCycle s _).trans h)
  have hdiag : u.diag = none := (exec_implemented_outputs hi hu).1
  exact ⟨u.tick, step_of_exec_next hf hu, hdiag⟩

end Sys2Proof.Safety

/-! The statements of the family 60_exceptions.md. -/

namespace Sys2Proof.Proofs

open Sys2Proof Sys2Proof.Machine Sys2Proof.Safety

/-- Settles O16, check by check in the order of rule R160: the latch, the bound, the opcode, the fatal
condition. -/
theorem checksAreMadeInOrder : Obligations.ChecksAreMadeInOrder := by
  intro s
  cases hn : s.halted with
  | some c => exact step_halted hn
  | none =>
    dsimp only
    by_cases hpc : 0xFFE ≤ s.pc.toNat
    · rw [if_pos hpc]
      exact ⟨_, step_skipped hn hpc, rfl, emit_frame s _⟩
    have hf : Fetches s := ⟨hn, Nat.lt_of_not_le hpc⟩
    rw [if_neg hpc]
    cases hi : (current s).implemented with
    | false => exact ⟨_, step_unimplemented hf hi, rfl⟩
    | true =>
      cases hc : fatalCondition s (current s) with
      | some c => exact ⟨_, step_of_fatalCondition_some hf hc⟩
      | none => exact step_of_fatalCondition_none hf hi hc

/-- Settles O22: an instruction raises its fatal condition, which latches and does nothing else, or completes. -/
theorem instructionsCompleteUnlessFatal : Obligations.InstructionsCompleteUnlessFatal := by
  intro i s
  cases hc : fatalCondition s i with
  | some c => exact exec_of_fatalCondition_some hc
  | none => exact exec_of_fatalCondition_none hc

end Sys2Proof.Proofs

/-! SUPPORT. Proofs of the family 70_reset_and_hazards.md. A completing cycle leaves the core running: `halted` is
in no instruction's writes, and neither the phases around an instruction nor a skipped cycle write it. -/

namespace Sys2Proof.Safety

open Sys2Proof.Machine

/-- A cycle that answers a next state leaves the core running (rules R31, R99). -/
theorem step_next_notHalted {s t : State} (h : step s = .next t) : t.halted = none := by
  obtain ⟨hn, ⟨-, rfl⟩ | ⟨-, u, hu, rfl⟩⟩ := step_next_cases h
  · exact hn
  · exact (exec_frame hu .halted (halted_not_mem_writes _)).trans hn

/-- A fetched cycle completes or takes its instruction's fatal condition (rules R95, R99). -/
theorem step_fetched_next_or_fatal {s : State} (hf : Fetches s) :
    (∃ t, step s = .next t) ∨ ∃ c u, step s = .fault (.fatal c u) := by
  cases hc : fatalCondition s (current s) with
  | some c => exact .inr ⟨c, _, step_of_fatalCondition_some hf hc⟩
  | none =>
    obtain ⟨u, hu⟩ := exec_of_fatalCondition_none ((fatalCondition_startCycle s _).trans hc)
    exact .inl ⟨u.tick, step_of_exec_next hf hu⟩

end Sys2Proof.Safety

/-! The statements of the family 70_reset_and_hazards.md. -/

namespace Sys2Proof.Proofs

open Sys2Proof Sys2Proof.Machine Sys2Proof.Safety

/-- Settles O18: from 0xFFE on the cycle is skipped, below it is fetched, and no cycle that completes halts. -/
theorem runningCoreAlwaysSteps : Obligations.RunningCoreAlwaysSteps := by
  intro s hn
  rcases Nat.lt_or_ge s.pc.toNat 0xFFE with hpc | hpc
  · rcases step_fetched_next_or_fatal ⟨hn, hpc⟩ with ⟨t, ht⟩ | hfatal
    · exact .inl ⟨t, ht, step_next_notHalted ht⟩
    · exact .inr hfatal
  · exact .inl ⟨_, step_skipped hn hpc, hn⟩

end Sys2Proof.Proofs
